-- ==== Sys2Proof/Word.lean ====
section
/-! DEFINITION. The widths of the LC3-2200a: words and the fields of an instruction. -/

namespace Sys2Proof

/-- A register, an address value, a memory word or an instruction: 32 bits (R9, R10, R25). -/
abbrev Word := BitVec 32

/-- A register number, 0 to 15 (R78). -/
abbrev RegNum := BitVec 4

/-- An opcode, bits 31:28 of every instruction (R76). -/
abbrev Opcode := BitVec 4

/-- The 20-bit field in bits 19:0 of an instruction (R85). -/
abbrev Field20 := BitVec 20

/-- A shift distance, 0 to 31 (R86). -/
abbrev Dist5 := BitVec 5

/-- The number of a microstate of the control unit (R158). -/
abbrev UState := BitVec 6

/-- An output word of the main ROM (R160). -/
abbrev ControlWord := BitVec 25

end Sys2Proof
end

