-- ==== Sys2Proof/Syntax.lean ====
section
/-! DEFINITION. The ten instructions of the LC3-2200a with the fields of their encodings, and the
assembler spellings the spec settles. -/

namespace Sys2Proof

/-- An instruction: one constructor per row of the opcode table (R91), exactly the ten in scope, with no extension and
no option (R2, R3); its fields are named as in R79 to R86.
Every field has exactly the width of its encoding, so every term is an instruction of the machine. -/
inductive Instr where
  /-- ADD DR, SR1, SR2 (R111). -/
  | add (dr sr1 sr2 : RegNum)
  /-- ADDI DR, SR1, immval20 (R112). -/
  | addi (dr sr1 : RegNum) (immval20 : Field20)
  /-- NAND DR, SR1, SR2 (R113). -/
  | nand (dr sr1 sr2 : RegNum)
  /-- BR with test bits n, z, p and PCoffset20 (R120). -/
  | br (n z p : Bool) (pcOffset20 : Field20)
  /-- JALR: RA receives the incremented PC, AT holds the target (R122). -/
  | jalr (ra tgt : RegNum)
  /-- LDR DR, offset20(BaseR) (R130). -/
  | ldr (dr baseR : RegNum) (offset20 : Field20)
  /-- LEA DR, PCoffset20 (R131). -/
  | lea (dr : RegNum) (pcOffset20 : Field20)
  /-- STR SR, offset20(BaseR) (R132). -/
  | str (sr baseR : RegNum) (offset20 : Field20)
  /-- SHF DR, SR1 with the shift vector's A, D and dist5 (R140, R86). -/
  | shf (dr sr1 : RegNum) (arith right : Bool) (dist5 : Dist5)
  /-- HALT (R150). -/
  | halt
  deriving DecidableEq, Repr

/-- One line of assembly in the spec's syntax (R99 to R101), operands as written: register numbers and
distances as natural numbers, immediates and offsets as integers, labels as the word address they name. -/
inductive Asm where
  /-- `ADD DR, SR1, SR2` -/
  | add (dr sr1 sr2 : Nat)
  /-- `ADDI DR, SR1, immval20` -/
  | addi (dr sr1 : Nat) (immval20 : Int)
  /-- `NAND DR, SR1, SR2` -/
  | nand (dr sr1 sr2 : Nat)
  /-- `BRn LABEL` -/
  | brn (label : Word)
  /-- `BRz LABEL` -/
  | brz (label : Word)
  /-- `BRp LABEL` -/
  | brp (label : Word)
  /-- `BRnz LABEL` -/
  | brnz (label : Word)
  /-- `BRzp LABEL` -/
  | brzp (label : Word)
  /-- `BRnp LABEL` -/
  | brnp (label : Word)
  /-- `BRnzp LABEL` -/
  | brnzp (label : Word)
  /-- `BR LABEL` -/
  | br (label : Word)
  /-- `JALR AT, RA`: the target register is written first (R82). -/
  | jalr (tgt ra : Nat)
  /-- `LDR DR, offset20(BaseR)` -/
  | ldr (dr : Nat) (offset20 : Int) (baseR : Nat)
  /-- `LEA DR, label` -/
  | lea (dr : Nat) (label : Word)
  /-- `STR SR, offset20(BaseR)` -/
  | str (sr : Nat) (offset20 : Int) (baseR : Nat)
  /-- `SHFLL DR, SR1, dist5` -/
  | shfll (dr sr1 dist5 : Nat)
  /-- `SHFRL DR, SR1, dist5` -/
  | shfrl (dr sr1 dist5 : Nat)
  /-- `SHFRA DR, SR1, dist5` -/
  | shfra (dr sr1 dist5 : Nat)
  /-- `HALT` -/
  | halt
  deriving DecidableEq, Repr

end Sys2Proof
end

