-- ==== Sys2Proof/Decode.lean ====
section
/-! DEFINITION. Decoding a 32-bit word (R90 to R97) and the canonical encoding (R79 to R86). -/

namespace Sys2Proof

/-- Why a word has no meaning. -/
inductive Reject where
  /-- `undefined_opcode`: bits 31:28 are 1001 to 1110 (R92). -/
  | undefinedOpcode
  /-- `reserved_br_bits`: opcode 0011 with a 1 among bits 27:23 (R94). -/
  | reservedBrBits
  deriving DecidableEq, Repr

/-! ### The fields of a word (R76 to R86) -/

/-- Bits 31:28 (R76). -/
def fieldOp (ir : Word) : Opcode := ir.extractLsb' 28 4

/-- RX, bits 27:24: DR, SR of STR, RA of JALR (R78). -/
def fieldRX (ir : Word) : RegNum := ir.extractLsb' 24 4

/-- RY, bits 23:20: SR1, BaseR, AT of JALR (R78). -/
def fieldRY (ir : Word) : RegNum := ir.extractLsb' 20 4

/-- RZ, bits 3:0: SR2 (R78). -/
def fieldRZ (ir : Word) : RegNum := ir.extractLsb' 0 4

/-- Bits 19:0: immval20, offset20, PCoffset20 or the shift vector (R85). -/
def field20 (ir : Word) : Field20 := ir.extractLsb' 0 20

/-- Bits 27:23, which a BR fixes at zero (R94). -/
def fieldBrZeros (ir : Word) : BitVec 5 := ir.extractLsb' 23 5

/-- n, bit 22 (R81, C1). -/
def fieldN (ir : Word) : Bool := ir.getLsbD 22

/-- z, bit 21 (R81, C1). -/
def fieldZ (ir : Word) : Bool := ir.getLsbD 21

/-- p, bit 20 (R81, C1). -/
def fieldP (ir : Word) : Bool := ir.getLsbD 20

/-- A of a shift vector, bit 19 (R86). -/
def shiftA (vec : Field20) : Bool := vec.getLsbD 19

/-- D of a shift vector, bit 18: 0 is left, 1 is right (R86). -/
def shiftD (vec : Field20) : Bool := vec.getLsbD 18

/-- dist5 of a shift vector, bits 4:0 (R86). -/
def shiftDist (vec : Field20) : Dist5 := vec.extractLsb' 0 5

/-! ### Decoding -/

/-- The verdict on a word: the opcode alone selects one of the ten instructions (R90, R91), and the six other opcodes
select none (R2, R3, R92); fields marked unused are not
looked at (R93, D4: log 9); for a BR the bits 27:23 are checked (R94, D5: log 10). -/
def decode (ir : Word) : Except Reject Instr :=
  match (fieldOp ir).toNat with
  | 0 => .ok (.add (fieldRX ir) (fieldRY ir) (fieldRZ ir))
  | 1 => .ok (.addi (fieldRX ir) (fieldRY ir) (field20 ir))
  | 2 => .ok (.nand (fieldRX ir) (fieldRY ir) (fieldRZ ir))
  | 3 => if fieldBrZeros ir = 0#5 then .ok (.br (fieldN ir) (fieldZ ir) (fieldP ir) (field20 ir))
         else .error .reservedBrBits
  | 4 => .ok (.jalr (fieldRX ir) (fieldRY ir))
  | 5 => .ok (.ldr (fieldRX ir) (fieldRY ir) (field20 ir))
  | 6 => .ok (.lea (fieldRX ir) (field20 ir))
  | 7 => .ok (.str (fieldRX ir) (fieldRY ir) (field20 ir))
  | 8 => .ok (.shf (fieldRX ir) (fieldRY ir) (shiftA (field20 ir)) (shiftD (field20 ir)) (shiftDist (field20 ir)))
  | 15 => .ok .halt
  | _ => .error .undefinedOpcode

/-- The word made of the low `nbits` bits of `w`, every bit above them zero: an instruction as the opcode
table numbers its bits. -/
def tableWord (nbits w : Nat) : Word := BitVec.ofNat 32 (w % 2 ^ nbits)

/-- The instruction the decoder reads from an instruction whose bits are `w`: one word (R75). -/
def decodeTableWord (nbits w : Nat) : Option Instr := (decode (tableWord nbits w)).toOption

/-! ### Encoding, by the six forms (R76) -/

/-- The opcode of an instruction (R91). -/
def opcodeOf : Instr → Opcode
  | .add _ _ _ => 0b0000#4
  | .addi _ _ _ => 0b0001#4
  | .nand _ _ _ => 0b0010#4
  | .br _ _ _ _ => 0b0011#4
  | .jalr _ _ => 0b0100#4
  | .ldr _ _ _ => 0b0101#4
  | .lea _ _ => 0b0110#4
  | .str _ _ _ => 0b0111#4
  | .shf _ _ _ _ _ => 0b1000#4
  | .halt => 0b1111#4

/-- R-form: opcode, DR, SR1, sixteen unused bits, SR2 (R79). -/
def formR (op : Opcode) (rx ry rz : RegNum) : Word := op ++ rx ++ ry ++ 0#16 ++ rz

/-- I-form: opcode, two registers, a 20-bit field (R80). -/
def formI (op : Opcode) (rx ry : RegNum) (imm : Field20) : Word := op ++ rx ++ ry ++ imm

/-- B-form: opcode, 0000, then 0 n z p, then PCoffset20 (R81). -/
def formB (op : Opcode) (n z p : Bool) (off : Field20) : Word :=
  op ++ 0#5 ++ BitVec.ofBool n ++ BitVec.ofBool z ++ BitVec.ofBool p ++ off

/-- J-form: opcode, RA, AT, twenty unused bits (R82). -/
def formJ (op : Opcode) (ra tgt : RegNum) : Word := op ++ ra ++ tgt ++ 0#20

/-- L-form: opcode, DR, four unused bits, PCoffset20 (R83). -/
def formL (op : Opcode) (dr : RegNum) (off : Field20) : Word := op ++ dr ++ 0#4 ++ off

/-- H-form: opcode, twenty-eight unused bits (R84). -/
def formH (op : Opcode) : Word := op ++ 0#28

/-- The shift vector: A, D, thirteen unused bits, dist5 (R86). -/
def shiftVector (arith right : Bool) (dist : Dist5) : Field20 :=
  BitVec.ofBool arith ++ BitVec.ofBool right ++ 0#13 ++ dist

/-- The canonical word of an instruction: every unused bit 0 (R93). -/
def encode (i : Instr) : Word :=
  match i with
  | .add dr sr1 sr2 => formR (opcodeOf i) dr sr1 sr2
  | .addi dr sr1 imm => formI (opcodeOf i) dr sr1 imm
  | .nand dr sr1 sr2 => formR (opcodeOf i) dr sr1 sr2
  | .br n z p off => formB (opcodeOf i) n z p off
  | .jalr ra tgt => formJ (opcodeOf i) ra tgt
  | .ldr dr baseR off => formI (opcodeOf i) dr baseR off
  | .lea dr off => formL (opcodeOf i) dr off
  | .str sr baseR off => formI (opcodeOf i) sr baseR off
  | .shf dr sr1 arith right dist => formI (opcodeOf i) dr sr1 (shiftVector arith right dist)
  | .halt => formH (opcodeOf i)

/-- The bits of a word that decoding an instruction `i` looks at: the complement of the fields marked
unused (R93). -/
def usedBits : Instr → Word
  | .add _ _ _ => 0xFFF0000F#32
  | .addi _ _ _ => 0xFFFFFFFF#32
  | .nand _ _ _ => 0xFFF0000F#32
  | .br _ _ _ _ => 0xFFFFFFFF#32
  | .jalr _ _ => 0xFFF00000#32
  | .ldr _ _ _ => 0xFFFFFFFF#32
  | .lea _ _ => 0xFF0FFFFF#32
  | .str _ _ _ => 0xFFFFFFFF#32
  | .shf _ _ _ _ _ => 0xFFFC001F#32
  | .halt => 0xF0000000#32

end Sys2Proof
end

