-- ==== Sys2Proof/Config.lean ====
section
/-! DEFINITION. What the spec leaves to the implementation: the open parameters with a default (given a
value here) and the free values (opaque constants without a body, so that no proof can see a value). -/

namespace Sys2Proof

/-- Which of OPTest and ChkCC is the high select bit of the next-state mux: `mux_select_order` (R161, D22). -/
inductive MuxOrder where
  | opTestHigh
  | chkCcHigh
  deriving DecidableEq, Repr, Inhabited

/-- The two ALU input latches (R164). -/
inductive Latch where
  | a
  | b
  deriving DecidableEq, Repr, Inhabited

/-- What a model at the microstate level takes as parameters: the three ROMs (D23), the number of the first
FETCH microstate (D21), the mux order (D22), and the latch that carries the value of a shift, the other
one carrying the shift vector (R163: "not stated"). -/
structure MicroConfig where
  /-- `main_rom`: the control word of each microstate (R158, R160). -/
  mainRom : Vector ControlWord 64
  /-- `seq_rom`: the first microstate of each opcode (R157). -/
  seqRom : Vector UState 16
  /-- `cc_rom`: address 0 when CCMatch is 0, address 1 when it is 1, addresses 2 and 3 never read (R159). -/
  ccRom : Vector UState 4
  /-- `fetch_state`: the number of the first FETCH microstate (R220). -/
  fetchState : UState
  /-- `mux_select_order` (R161). -/
  muxOrder : MuxOrder
  /-- The latch that carries the value to be shifted (R163). -/
  shiftValue : Latch
  deriving DecidableEq, Repr, Inhabited

namespace Config

/-- `reset_pc`, at the default the spec gives it (R216, D2). DESIGN CHOICE, unsafe: log 4. -/
def resetPc : Word := 0#32

/-- `load_base`, at the default the spec gives it (R222, D18). DESIGN CHOICE, unsafe: log 5. -/
def loadBase : Word := 0#32

/-- What a general register that nothing has written reads as: a free draw of 32 bits for each register
(R217, D11). Free value: log 1. -/
opaque startRegister : RegNum → Word

/-- The N flag before the first SetCC: a free bit (R121, R215). Free value: log 2. -/
opaque startN : Bool

/-- The Z flag before the first SetCC: a free bit (R121, R215). Free value: log 2. -/
opaque startZ : Bool

/-- The P flag before the first SetCC: a free bit (R121, R215). Free value: log 2. -/
opaque startP : Bool

/-- What a word of memory that nothing has written reads as, by word address: a free draw of 32 bits for each
word (R218, D12). Free value: log 3. -/
opaque startWord : Nat → Word

/-- The pc once a HALT has executed: any value (R151, D15), here of the HALT's address and of the number of
the draw. Free value: log 16. -/
opaque pcAfterHalt : Word → Nat → Word

/-- ROM contents and wiring the spec leaves to the implementation (R171, D21 to D23), before the condition of
R170, which `Machine.microcode` imposes. Free value: log 22. -/
opaque micro : MicroConfig

/-- IR at start-up (R220, U19). Free value: log 27. -/
opaque startIr : Word

/-- MAR at start-up (R220, U19). Free value: log 27. -/
opaque startMar : Word

/-- Latch A at start-up (R220, U19). Free value: log 27. -/
opaque startLatchA : Word

/-- Latch B at start-up (R220, U19). Free value: log 27. -/
opaque startLatchB : Word

/-- What is on the bus in a microstate that drives nothing onto it, by the number of the draw (not stated by
the spec). Free value: log 25. -/
opaque floatingBus : Nat → Word

end Config

end Sys2Proof
end

