-- ==== Sys2Proof/Machine/State.lean ====
section
/-! DEFINITION. The state of the LC3-2200a as plain data: the complete architectural state of R40, with the
"written or not" record the spec asks a model to carry (93_implementation_defined.md part 1), the reasons a
step can stop, and the state at start-up. -/

namespace Sys2Proof.Machine

/-- The condition codes: three separate one-bit flags (R37). -/
structure Flags where
  /-- N, negative. -/
  n : Bool
  /-- Z, zero. -/
  z : Bool
  /-- P, positive. -/
  p : Bool
  deriving DecidableEq, Repr

/-- The words of memory that have been written, each with its word address (R50, R56: memory is "a map from word
addresses to 32-bit numbers and never as bytes"; the list is log 6). A word address that is not listed has not been
written. -/
abbrev Memory := List (Nat × Word)

/-- The state of the machine (R40) and the model's record of what has been written. -/
structure State where
  /-- x[0] to x[15] (R25). The entry of a register that has not been written, and entry 0, are never read:
  every read goes through `State.readReg`. -/
  regs : Vector Word 16
  /-- Model's own: which registers an instruction has written (log 1). -/
  regWritten : Vector Bool 16
  /-- The program counter, a word address (R33, R34). -/
  pc : Word
  /-- N, Z, P (R37). Read through `State.flags`. -/
  cc : Flags
  /-- Model's own: whether a SetCC has happened (log 2). -/
  ccWritten : Bool
  /-- The memory (R50), as far as it has been written. -/
  mem : Memory
  /-- Whether a HALT has executed (R42). -/
  halted : Bool
  /-- Model's own: how many free values have been drawn (log 16). -/
  draws : Nat
  deriving DecidableEq, Repr

/-- Why the machine has no further step. -/
inductive Fault where
  /-- Raised by `step` on a halted machine, which "has no step" (R18, U9). Safe: the spec gives nothing that
  happens next, and nothing resumes it (R207). -/
  | halted
  deriving DecidableEq, Repr

/-- Why a step has no meaning. -/
inductive Refusal where
  /-- Raised by `exec` for an instruction the model gives no meaning; no arm does. Safe. -/
  | notModelled (mnemonic : String)
  /-- Raised by `step` when the fetched word has an opcode from 1001 to 1110 (R92). Safe: the spec gives these
  words no meaning. -/
  | undefinedOpcode
  /-- Raised by `step` when the fetched word has opcode 0011 and a 1 among bits 27:23 (R94). Safe: the spec
  gives these words no meaning. -/
  | reservedBrBits
  deriving DecidableEq, Repr

/-- The machine at start-up, before the host has placed a program (R44, R215 to R221): nothing written, pc at
`reset_pc`, not halted. The stored entries of unwritten registers and flags are placeholders that no
instruction can see (log 1, log 2). -/
def State.reset : State where
  regs := Vector.replicate 16 0#32
  regWritten := Vector.replicate 16 false
  pc := Config.resetPc
  cc := { n := false, z := false, p := false }
  ccWritten := false
  mem := []
  halted := false
  draws := 0

end Sys2Proof.Machine
end

