-- ==== Sys2Proof/Machine/Ops.lean ====
section
/-! DEFINITION. The operations every meaning is written with: reading and writing registers, memory and the
pc. Register 0 is hard-wired in the two register operations, the 24-bit truncation of addresses is in the
memory operations, and what unwritten state reads as is in the three read operations. The machine takes no
exception (R190, R194, R195), so there is no operation that takes one or returns from one. -/

namespace Sys2Proof.Machine

/-! ### General registers (R12, R25, R27) -/

/-- `x[r]`: 0 for register 0 (R27), the register's value once it has been written, and before that a value
the spec leaves open (R217; free value, log 1). -/
def State.readReg (s : State) (r : RegNum) : Word :=
  if r = 0#4 then 0#32
  else if s.regWritten[r.toNat]'r.isLt then s.regs[r.toNat]'r.isLt
  else Config.startRegister r

/-- `x[r] <- v`: no effect when `r` is register 0 (R27). -/
def State.writeReg (s : State) (r : RegNum) (v : Word) : State :=
  if r = 0#4 then s
  else { s with regs := s.regs.set r.toNat v r.isLt, regWritten := s.regWritten.set r.toNat true r.isLt }

/-- Whether a read of `x[r]` is a read of state that has a value: register 0 always has, the others once
written (R197 (4)). -/
def State.regReady (s : State) (r : RegNum) : Bool := r == 0#4 || s.regWritten[r.toNat]'r.isLt

/-! ### Condition codes (R37, R121, R215) -/

/-- N, Z, P as an instruction sees them: indeterminate bits, left open, until the first SetCC (R121; free
values, log 2). -/
def State.flags (s : State) : Flags :=
  if s.ccWritten then s.cc else { n := Config.startN, z := Config.startZ, p := Config.startP }

/-- All three flags are loaded together (R38, R165). -/
def State.writeFlags (s : State) (f : Flags) : State := { s with cc := f, ccWritten := true }

/-! ### Memory as a map from word addresses to words (R50, R54, R56) -/

/-- The word written at a word address, if one has been. -/
def readCell : Memory → Nat → Option Word
  | [], _ => none
  | (b, v) :: rest, a => if a = b then some v else readCell rest a

/-- The memory with a word written at a word address, in the canonical form. -/
def writeCell : Memory → Nat → Word → Memory
  | [], a, v => [(a, v)]
  | (b, w) :: rest, a, v =>
    if a < b then (a, v) :: (b, w) :: rest
    else if a = b then (a, v) :: rest
    else (b, w) :: writeCell rest a v

/-- The number of words: 2^24 = 16 777 216 (R52). -/
def memoryWords : Nat := 2 ^ 24

/-- The canonical form of a memory: word addresses strictly rising, each one within the memory. What an unlisted
address reads as is "not written", which no entry holds, so two memories in this form that read alike are equal. -/
abbrev Memory.wf (m : Memory) : Prop := m.Pairwise (·.1 < ·.1) ∧ ∀ c ∈ m, c.1 < memoryWords

/-- The word at a word address: what was written there, and before that a value the spec leaves open (R218; free
value, log 3). -/
def State.wordAt (s : State) (a : Nat) : Word := (readCell s.mem a).getD (Config.startWord a)

/-! ### Memory access (R14, R51, R54) -/

/-- "All memory addresses are truncated to 24 bits on access": bits 23:0 of an address (R51). -/
def wordAddress (addr : Word) : BitVec 24 := addr.extractLsb' 0 24

/-- The key of the word an address names: `addr[23:0]` as a number (R51). -/
def wordCell (addr : Word) : Nat := (wordAddress addr).toNat

/-- `MemRead(addr, 32)`: the whole word at `addr[23:0]` (R54). It cannot fail. -/
def State.memRead (s : State) (addr : Word) : Word := s.wordAt (wordCell addr)

/-- The memory with the word at `addr[23:0]` replaced by `v`. -/
def writeWord (m : Memory) (addr v : Word) : Memory := writeCell m (wordCell addr) v

/-- `MemWrite(addr, 32, v)`: the word at `addr[23:0]` becomes `v`, no other word changes (R54). It cannot
fail. -/
def State.memWrite (s : State) (addr v : Word) : State := { s with mem := writeWord s.mem addr v }

/-- Whether the word an address names has been written, by the host or by a STR (R197 (4)). -/
def State.memReady (s : State) (addr : Word) : Bool := (readCell s.mem (wordCell addr)).isSome

/-! ### Program counter (R16, R34, R35) -/

/-- `pc1`, the incremented PC: address of the instruction plus 1, modulo 2^32 (R16, R36). -/
def State.pc1 (s : State) : Word := s.pc + 1#32

/-- `pc <- t` (R16). -/
def State.setPc (s : State) (t : Word) : State := { s with pc := t }

/-- `pc <- pc1`, how an instruction that does not assign the pc ends (R16, R35). -/
def State.advance (s : State) : State := s.setPc s.pc1

/-- `ir <- MemRead(pc, 32)`: the fetch uses `pc[23:0]` (R18, R36, R51). -/
def State.fetch (s : State) : Word := s.memRead s.pc

/-! ### Halting (R42, R150, R151) -/

/-- `halted <- 1`; the pc is left as any value (R151: free value, log 16). -/
def State.halt (s : State) : State :=
  { s with halted := true, pc := Config.pcAfterHalt s.pc s.draws, draws := s.draws + 1 }

end Sys2Proof.Machine
end

