-- ==== Sys2Proof/Machine/Flags.lean ====
section
/-! DEFINITION. The one flag computation of the machine, SetCC (R15, R38), and the one test of the flags, the
CCMatch bit of BR (R120, R167). -/

namespace Sys2Proof.Machine

/-- The flags of a value: N if it is negative as a signed number, Z if zero, P if positive (R38). All three
are computed, so exactly one is 1 (log 14). -/
def Flags.ofValue (v : Word) : Flags :=
  { n := v.msb, z := v == 0#32, p := !v.msb && !(v == 0#32) }

/-- `SetCC(v)`: writes all three flags (R15, R38). -/
def State.setCC (s : State) (v : Word) : State := s.writeFlags (Flags.ofValue v)

/-- CCMatch: `(n and N) or (z and Z) or (p and P)` (R120, R167). -/
def ccMatch (n z p : Bool) (f : Flags) : Bool := (n && f.n) || (z && f.z) || (p && f.p)

end Sys2Proof.Machine
end

