-- ==== Sys2Proof/Machine/Operands.lean ====
section
/-! DEFINITION. How instructions form values and addresses: sign extension, the two addressing modes of R133,
the three shifts of R11, and the two shapes in which a result is delivered. -/

namespace Sys2Proof.Machine

/-- `sext_20`: the value whose low 20 bits are the field and whose bits 31:20 are copies of bit 19 (R13). -/
def sext20 (v : Field20) : Word := v.signExtend 32

/-- Base plus displacement: `x[BaseR] + sext_20(offset20)`, modulo 2^32 (R55, R133). -/
def State.baseAddress (s : State) (baseR : RegNum) (offset20 : Field20) : Word :=
  s.readReg baseR + sext20 offset20

/-- PC-relative: `pc1 + sext_20(PCoffset20)`, modulo 2^32 (R36, R133). -/
def State.pcRelative (s : State) (pcOffset20 : Field20) : Word := s.pc1 + sext20 pcOffset20

/-- The value of a shift: D = 0 is left, with A ignored (R95); D = 1 is right, logical for A = 0 and arithmetic
for A = 1 (R140). The distance is unsigned, 0 to 31. -/
def shiftValue (arith right : Bool) (v : Word) (dist : Dist5) : Word :=
  if right then
    if arith then v.sshiftRight dist.toNat else v >>> dist.toNat
  else v <<< dist.toNat

/-- The end of an instruction marked `+`: the result goes to DR, the flags are set from the computed result
even when DR is register 0 (R39, D10: log 13), and the pc advances. -/
def State.deliver (s : State) (dr : RegNum) (r : Word) : State := ((s.writeReg dr r).setCC r).advance

end Sys2Proof.Machine
end

