-- ==== Sys2Proof/Machine/Arithmetic.lean ====
section
/-! DEFINITION. The meanings of ADD, ADDI and NAND (40_arithmetic_logic.md). Both sources are read before DR
is written. -/

namespace Sys2Proof.Machine

/-- ADD (R111): the sum modulo 2^32 (R110; log 11). -/
def execAdd (dr sr1 sr2 : RegNum) (s : State) : Host.Outcome State Fault Refusal :=
  .next (s.deliver dr (s.readReg sr1 + s.readReg sr2))

/-- ADDI (R112): the sum with the sign-extended immediate, modulo 2^32 (R110; log 11). -/
def execAddi (dr sr1 : RegNum) (immval20 : Field20) (s : State) : Host.Outcome State Fault Refusal :=
  .next (s.deliver dr (s.readReg sr1 + sext20 immval20))

/-- NAND (R113): the complement of the bitwise AND. -/
def execNand (dr sr1 sr2 : RegNum) (s : State) : Host.Outcome State Fault Refusal :=
  .next (s.deliver dr (~~~(s.readReg sr1 &&& s.readReg sr2)))

end Sys2Proof.Machine
end

