-- ==== Sys2Proof/Machine/Control.lean ====
section
/-! DEFINITION. The meanings of BR and JALR (41_control_transfer.md). They take effect at once (R124). -/

namespace Sys2Proof.Machine

/-- BR (R120): branches to the pc-relative target if a tested flag is 1. On flags that nothing has written the
outcome is left open (R121; log 2); with n = z = p = 0 it is never taken. -/
def execBr (n z p : Bool) (pcOffset20 : Field20) (s : State) : Host.Outcome State Fault Refusal :=
  .next (s.setPc (if ccMatch n z p s.flags then s.pcRelative pcOffset20 else s.pc1))

/-- JALR (R122): first `x[RA] <- pc1`, then `pc <- x[AT]`, read after that write (D20: log 15). All 32 bits. -/
def execJalr (ra tgt : RegNum) (s : State) : Host.Outcome State Fault Refusal :=
  let linked := s.writeReg ra s.pc1
  .next (linked.setPc (linked.readReg tgt))

end Sys2Proof.Machine
end

