-- ==== Sys2Proof/Machine/Halt.lean ====
section
/-! DEFINITION. The meaning of HALT (44_halt.md), the only instruction of a system kind (R152). -/

namespace Sys2Proof.Machine

/-- HALT (R150): the machine executes no further instruction; registers, flags and memory are kept. -/
def execHalt (s : State) : Host.Outcome State Fault Refusal := .next s.halt

end Sys2Proof.Machine
end

