-- ==== Sys2Proof/Machine/LoadStore.lean ====
section
/-! DEFINITION. The meanings of LDR, LEA and STR (42_load_store_lea.md). No address can fault (R54). -/

namespace Sys2Proof.Machine

/-- LDR (R130): the word at base plus offset; flags from the word loaded. -/
def execLdr (dr baseR : RegNum) (offset20 : Field20) (s : State) : Host.Outcome State Fault Refusal :=
  .next (s.deliver dr (s.memRead (s.baseAddress baseR offset20)))

/-- LEA (R131): the pc-relative address itself, all 32 bits; flags from the address. -/
def execLea (dr : RegNum) (pcOffset20 : Field20) (s : State) : Host.Outcome State Fault Refusal :=
  .next (s.deliver dr (s.pcRelative pcOffset20))

/-- STR (R132): the word in SR goes to base plus offset; no flag and no register changes. -/
def execStr (sr baseR : RegNum) (offset20 : Field20) (s : State) : Host.Outcome State Fault Refusal :=
  .next (s.memWrite (s.baseAddress baseR offset20) (s.readReg sr)).advance

end Sys2Proof.Machine
end

