-- ==== Sys2Proof/Machine/Shift.lean ====
section
/-! DEFINITION. The meaning of SHF (43_shift.md). -/

namespace Sys2Proof.Machine

/-- SHF (R140): the shifted value of SR1; flags from the shifted value. -/
def execShf (dr sr1 : RegNum) (arith right : Bool) (dist5 : Dist5) (s : State) :
    Host.Outcome State Fault Refusal :=
  .next (s.deliver dr (shiftValue arith right (s.readReg sr1) dist5))

end Sys2Proof.Machine
end

