-- ==== Sys2Proof/Machine/Dispatch.lean ====
section
/-! DEFINITION. The meaning of every instruction: one arm per constructor of `Instr`. -/

namespace Sys2Proof.Machine

def exec (i : Instr) (s : State) : Host.Outcome State Fault Refusal :=
  match i with
  | .add dr sr1 sr2 => Sys2Proof.Machine.execAdd dr sr1 sr2 s
  | .addi dr sr1 imm => Sys2Proof.Machine.execAddi dr sr1 imm s
  | .nand dr sr1 sr2 => Sys2Proof.Machine.execNand dr sr1 sr2 s
  | .br n z p off => Sys2Proof.Machine.execBr n z p off s
  | .jalr ra tgt => Sys2Proof.Machine.execJalr ra tgt s
  | .ldr dr baseR off => Sys2Proof.Machine.execLdr dr baseR off s
  | .lea dr off => Sys2Proof.Machine.execLea dr off s
  | .str sr baseR off => Sys2Proof.Machine.execStr sr baseR off s
  | .shf dr sr1 arith right dist => Sys2Proof.Machine.execShf dr sr1 arith right dist s
  | .halt => Sys2Proof.Machine.execHalt s

end Sys2Proof.Machine
end

