-- ==== Sys2Proof/Machine/Step.lean ====
section
/-! DEFINITION. One architectural step (R18): fetch, decode, perform; and where a step fetches from. -/

namespace Sys2Proof.Machine

/-- One step. A halted machine "has no step" (R18). A refused word has no partial effect (R193). -/
def step (s : State) : Host.Outcome State Fault Refusal :=
  if s.halted then .fault .halted
  else
    match decode s.fetch with
    | .ok i => exec i s
    | .error .undefinedOpcode => .refused .undefinedOpcode
    | .error .reservedBrBits => .refused .reservedBrBits

/-- The state whose very next step runs the instruction with the bits `w`: the word at the pc holds it and the
machine is running. It stands for the host's loading of a program (R222; log 5). -/
def State.withFetchWord (s : State) (nbits w : Nat) : State :=
  { s.memWrite s.pc (tableWord nbits w) with halted := false }

end Sys2Proof.Machine
end

