-- ==== Sys2Proof/Machine/Micro.lean ====
section
/-! DEFINITION. The datapath and the three-ROM microcontrol unit (49_datapath_and_microcontrol.md), one microstate
a step, below the instruction level. The ROM contents and the wiring the spec leaves open are a parameter
(`MicroConfig`; log 22). No instruction can observe a microstate (R18, R43). -/

namespace Sys2Proof.Machine

/-! ### The control word (R160) -/

/-- The control signals of a microstate: Table 3, in bit order (R160). -/
structure Control where
  /-- NextState, bits 5:0. -/
  nextState : UState
  /-- Bit 6: drive the selected register onto the bus. -/
  drReg : Bool := false
  /-- Bit 7: drive the RAM word at the MAR address. -/
  drMem : Bool := false
  /-- Bit 8: drive the ALU result. -/
  drAlu : Bool := false
  /-- Bit 9: drive the PC. -/
  drPc : Bool := false
  /-- Bit 10: drive the sign-extended IR[19:0]. -/
  drOff : Bool := false
  /-- Bit 11: load the PC. -/
  ldPc : Bool := false
  /-- Bit 12: load IR. -/
  ldIr : Bool := false
  /-- Bit 13: load MAR. -/
  ldMar : Bool := false
  /-- Bit 14: load latch A. -/
  ldA : Bool := false
  /-- Bit 15: load latch B. -/
  ldB : Bool := false
  /-- Bit 16: load N, Z, P. -/
  ldCc : Bool := false
  /-- Bit 17: write the selected register. -/
  wrReg : Bool := false
  /-- Bit 18: write the RAM word at the MAR address. -/
  wrMem : Bool := false
  /-- Bit 19. -/
  regSelLo : Bool := false
  /-- Bit 20. -/
  regSelHi : Bool := false
  /-- Bit 21. -/
  aluLo : Bool := false
  /-- Bit 22. -/
  aluHi : Bool := false
  /-- Bit 23: the opcode determines the next state. -/
  opTest : Bool := false
  /-- Bit 24: CCMatch determines the next state. -/
  chkCc : Bool := false
  deriving DecidableEq, Repr

/-- The signals of a main-ROM word: "asserted in a microstate when its bit in that state's word is 1" (R160). -/
def Control.ofWord (w : ControlWord) : Control where
  nextState := w.extractLsb' 0 6
  drReg := w.getLsbD 6
  drMem := w.getLsbD 7
  drAlu := w.getLsbD 8
  drPc := w.getLsbD 9
  drOff := w.getLsbD 10
  ldPc := w.getLsbD 11
  ldIr := w.getLsbD 12
  ldMar := w.getLsbD 13
  ldA := w.getLsbD 14
  ldB := w.getLsbD 15
  ldCc := w.getLsbD 16
  wrReg := w.getLsbD 17
  wrMem := w.getLsbD 18
  regSelLo := w.getLsbD 19
  regSelHi := w.getLsbD 20
  aluLo := w.getLsbD 21
  aluHi := w.getLsbD 22
  opTest := w.getLsbD 23
  chkCc := w.getLsbD 24

/-- The main-ROM word with given signals, bit 24 first. -/
def Control.toWord (c : Control) : ControlWord :=
  BitVec.ofBool c.chkCc ++ BitVec.ofBool c.opTest ++ BitVec.ofBool c.aluHi ++ BitVec.ofBool c.aluLo ++
  BitVec.ofBool c.regSelHi ++ BitVec.ofBool c.regSelLo ++ BitVec.ofBool c.wrMem ++ BitVec.ofBool c.wrReg ++
  BitVec.ofBool c.ldCc ++ BitVec.ofBool c.ldB ++ BitVec.ofBool c.ldA ++ BitVec.ofBool c.ldMar ++
  BitVec.ofBool c.ldIr ++ BitVec.ofBool c.ldPc ++ BitVec.ofBool c.drOff ++ BitVec.ofBool c.drPc ++
  BitVec.ofBool c.drAlu ++ BitVec.ofBool c.drMem ++ BitVec.ofBool c.drReg ++ c.nextState

/-! ### The state below the instruction level (R43, R158, R164) -/

/-- The architectural state with the registers of the datapath and the control unit. -/
structure MicroState where
  /-- The registers, pc, flags and memory. `halted` plays no part here: a halted control unit is one whose
  microstates never lead back to FETCH (R170). -/
  arch : State
  /-- IR, the instruction register. -/
  ir : Word
  /-- MAR, the memory address register: the full 32-bit address (R168). -/
  mar : Word
  /-- A, an ALU input latch. -/
  latchA : Word
  /-- B, an ALU input latch. -/
  latchB : Word
  /-- The number of the current microstate (R158). -/
  ustate : UState
  deriving DecidableEq, Repr

/-- Why a microstate has no meaning. All three are safe: no next state is claimed. -/
inductive MicroRefusal where
  /-- OPTest and ChkCC both asserted: "nothing is input into the '11' pin" (R161, U15). -/
  | bothTests
  /-- RegSelHi and RegSelLo both asserted while a register is driven or written (R162, U16). -/
  | unusedRegSel
  /-- More than one source drives the bus (R166, U21). -/
  | busContention
  deriving DecidableEq, Repr

/-- The micro machine at start-up: the architectural state after reset, the control unit in the first FETCH
microstate, everything else any value (R220, D21; log 27). -/
def MicroState.reset (cfg : MicroConfig) : MicroState where
  arch := State.reset
  ir := Config.startIr
  mar := Config.startMar
  latchA := Config.startLatchA
  latchB := Config.startLatchB
  ustate := cfg.fetchState

/-! ### The datapath (R162 to R168) -/

/-- Table 4: which field of IR numbers the register; 11 is unused (R162). -/
def regSelect (hi lo : Bool) (ir : Word) : Option RegNum :=
  match hi, lo with
  | false, false => some (fieldRX ir)
  | false, true => some (fieldRY ir)
  | true, false => some (fieldRZ ir)
  | true, true => none

/-- The shift function of the ALU: A, D and dist5 are bits 19, 18 and 4:0 of the sign-extended vector (R140,
R163). -/
def aluShift (value vector : Word) : Word :=
  shiftValue (vector.getLsbD 19) (vector.getLsbD 18) value (vector.extractLsb' 0 5)

/-- Table 5: the function of the ALU on its latches (R163). -/
def aluResult (shiftLatch : Latch) (hi lo : Bool) (a b : Word) : Word :=
  match hi, lo with
  | false, false => a + b
  | false, true => ~~~(a &&& b)
  | true, false => a + 1#32
  | true, true =>
    match shiftLatch with
    | .a => aluShift a b
    | .b => aluShift b a

/-- How many sources the microstate drives onto the bus (R166). -/
def Control.drivers (c : Control) : Nat :=
  c.drReg.toNat + c.drMem.toNat + c.drAlu.toNat + c.drPc.toNat + c.drOff.toNat

/-- Whether the microstate takes the value on the bus anywhere (R166). -/
def Control.usesBus (c : Control) : Bool :=
  c.ldPc || c.ldIr || c.ldMar || c.ldA || c.ldB || c.ldCc || c.wrReg || c.wrMem

/-- The register number the microstate selects; 0 stands in for the unused selection, which `microStep`
refuses where it matters. -/
def MicroState.selected (m : MicroState) (c : Control) : RegNum := (regSelect c.regSelHi c.regSelLo m.ir).getD 0#4

/-- The value on the bus when at most one source drives it (R166); with no source it is left open (log 25). -/
def MicroState.bus (cfg : MicroConfig) (m : MicroState) (c : Control) : Word :=
  if c.drReg then m.arch.readReg (m.selected c)
  else if c.drMem then m.arch.memRead m.mar
  else if c.drAlu then aluResult cfg.shiftValue c.aluHi c.aluLo m.latchA m.latchB
  else if c.drPc then m.arch.pc
  else if c.drOff then sext20 (field20 m.ir)
  else Config.floatingBus m.arch.draws

/-- What the end of a microstate does to the architectural state: the bus value `v` goes where the Ld and Wr
signals say (R166; log 23). -/
def MicroState.latchArch (m : MicroState) (c : Control) (v : Word) : State :=
  let s0 := m.arch
  let s1 := if c.wrReg then s0.writeReg (m.selected c) v else s0
  let s2 := if c.ldCc then s1.setCC v else s1
  let s3 := if c.wrMem then s2.memWrite m.mar v else s2
  let s4 := if c.ldPc then s3.setPc v else s3
  if c.drivers = 0 && c.usesBus then { s4 with draws := s4.draws + 1 } else s4

/-! ### The ROMs and the next microstate (R156 to R161) -/

/-- The three places the next state can come from (R161). -/
inductive NextSource where
  | mainRom
  | seqRom
  | ccRom
  deriving DecidableEq, Repr

/-- The two select bits of the mux (R161, D22). -/
def muxSelect (order : MuxOrder) (opTest chkCc : Bool) : BitVec 2 :=
  match order with
  | .opTestHigh => BitVec.ofBool opTest ++ BitVec.ofBool chkCc
  | .chkCcHigh => BitVec.ofBool chkCc ++ BitVec.ofBool opTest

/-- What is wired to each input of the mux: 00 the main ROM, 11 nothing, 01 and 10 the two small ROMs in the
order that goes with the select bits (R161, D22). -/
def muxInput (order : MuxOrder) (select : BitVec 2) : Option NextSource :=
  match select.toNat, order with
  | 0, _ => some .mainRom
  | 1, .opTestHigh => some .ccRom
  | 1, .chkCcHigh => some .seqRom
  | 2, .opTestHigh => some .seqRom
  | 2, .chkCcHigh => some .ccRom
  | _, _ => none

/-- The address of the CCMatch ROM: "the high address bit for this ROM is permanently set to zero" (R159). -/
def ccRomAddress (bit : Bool) : BitVec 2 := 0#1 ++ BitVec.ofBool bit

/-- The signals of a microstate, by its number: its main-ROM word (R158). -/
def controlOf (cfg : MicroConfig) (u : UState) : Control := Control.ofWord (cfg.mainRom[u.toNat]'u.isLt)

/-- The signals of the current microstate. -/
def MicroState.control (cfg : MicroConfig) (m : MicroState) : Control := controlOf cfg m.ustate

/-- The microstate at which the execution of an opcode begins: the sequencer-ROM word at it (R157). -/
def seqStart (cfg : MicroConfig) (op : Opcode) : UState := cfg.seqRom[op.toNat]'op.isLt

/-- The microstate the CCMatch ROM gives for a CCMatch bit (R159). -/
def ccStart (cfg : MicroConfig) (bit : Bool) : UState := cfg.ccRom[(ccRomAddress bit).toNat]'(ccRomAddress bit).isLt

/-- CCMatch, from the current flags and the n, z, p bits of IR: combinational (R167). -/
def MicroState.ccMatchBit (m : MicroState) : Bool :=
  ccMatch (fieldN m.ir) (fieldZ m.ir) (fieldP m.ir) m.arch.flags

/-- The number of the next microstate; none when the mux input is unconnected (R161). -/
def MicroState.nextUState (cfg : MicroConfig) (m : MicroState) (c : Control) : Option UState :=
  match muxInput cfg.muxOrder (muxSelect cfg.muxOrder c.opTest c.chkCc) with
  | some .mainRom => some c.nextState
  | some .seqRom => some (seqStart cfg (fieldOp m.ir))
  | some .ccRom => some (ccStart cfg m.ccMatchBit)
  | none => none

/-! ### One microstate -/

/-- One clock of the micro machine: the sources that are driven are read, then everything is loaded. -/
def microStep (cfg : MicroConfig) (m : MicroState) : Host.Outcome MicroState Empty MicroRefusal :=
  let c := m.control cfg
  let v := m.bus cfg c
  if 1 < c.drivers then .refused .busContention
  else if (regSelect c.regSelHi c.regSelLo m.ir).isNone && (c.drReg || c.wrReg) then .refused .unusedRegSel
  else
    match m.nextUState cfg c with
    | none => .refused .bothTests
    | some u =>
      .next {
        arch := m.latchArch c v
        ir := if c.ldIr then v else m.ir
        mar := if c.ldMar then v else m.mar
        latchA := if c.ldA then v else m.latchA
        latchB := if c.ldB then v else m.latchB
        ustate := u }

/-- `k` clocks, stopping at the first refusal. -/
def microRun (cfg : MicroConfig) : Nat → MicroState → Host.Outcome MicroState Empty MicroRefusal
  | 0, m => .next m
  | k + 1, m =>
    match microStep cfg m with
    | .next m' => microRun cfg k m'
    | .fault r => .fault r
    | .refused r => .refused r

end Sys2Proof.Machine
end

