-- ==== Sys2Proof/Machine/Microprogram.lean ====
section
/-! DEFINITION. The informative microprogram of R172 as ROM contents. PRESUMED (log 28): the spec gives it from
general knowledge and no rule depends on it; the state numbers are this model's (DESIGN CHOICE). The machine's
own microcode, which is not given (R171), is `microcode` in Cycle.lean. -/

namespace Sys2Proof.Machine

/-- Number of the first FETCH microstate in the sketch. -/
def sketchFetch : UState := 0

/-- Number of the HALT microstate in the sketch, "a state whose NextState is itself" (R172). -/
def sketchHalt : UState := 32

/-- Drive the register numbered by IR[23:20] and load A. -/
def loadAfromRY (next : UState) : Control :=
  { nextState := next, regSelLo := true, drReg := true, ldA := true }

/-- Drive the sign-extended offset and load B. -/
def loadBfromOffset (next : UState) : Control := { nextState := next, drOff := true, ldB := true }

/-- Drive the PC and load A. -/
def loadAfromPc (next : UState) : Control := { nextState := next, drPc := true, ldA := true }

/-- Drive the ALU result of a function, write DR and load the flags, back to FETCH. -/
def aluToDr (hi lo : Bool) : Control :=
  { nextState := sketchFetch, aluHi := hi, aluLo := lo, drAlu := true, wrReg := true, ldCc := true }

/-- The microstates of R172, in the order of their numbers. -/
def sketchControls : List Control := [
  -- 0 to 2: FETCH
  { nextState := 1, drPc := true, ldMar := true, ldA := true },
  { nextState := 2, drMem := true, ldIr := true },
  { nextState := 0, aluHi := true, drAlu := true, ldPc := true, opTest := true },
  -- 3 to 5: ADD
  loadAfromRY 4,
  { nextState := 5, regSelHi := true, drReg := true, ldB := true },
  aluToDr false false,
  -- 6 to 8: ADDI
  loadAfromRY 7,
  loadBfromOffset 8,
  aluToDr false false,
  -- 9 to 11: NAND
  loadAfromRY 10,
  { nextState := 11, regSelHi := true, drReg := true, ldB := true },
  aluToDr false true,
  -- 12 to 15: BR, and its three taken microstates
  { nextState := 0, chkCc := true },
  loadAfromPc 14,
  loadBfromOffset 15,
  { nextState := 0, drAlu := true, ldPc := true },
  -- 16 and 17: JALR
  { nextState := 17, drPc := true, wrReg := true },
  { nextState := 0, regSelLo := true, drReg := true, ldPc := true },
  -- 18 to 21: LDR
  loadAfromRY 19,
  loadBfromOffset 20,
  { nextState := 21, drAlu := true, ldMar := true },
  { nextState := 0, drMem := true, wrReg := true, ldCc := true },
  -- 22 to 24: LEA
  loadAfromPc 23,
  loadBfromOffset 24,
  aluToDr false false,
  -- 25 to 28: STR
  loadAfromRY 26,
  loadBfromOffset 27,
  { nextState := 28, drAlu := true, ldMar := true },
  { nextState := 0, drReg := true, wrMem := true },
  -- 29 to 31: SHF
  loadAfromRY 30,
  loadBfromOffset 31,
  aluToDr true true,
  -- 32: HALT
  { nextState := 32 }]

/-- The sketch as a configuration. The sequencer ROM sends the six undefined opcodes to the HALT microstate and
the unused main-ROM words are 0; nothing rests on either. -/
def sketchConfig : MicroConfig where
  mainRom := Vector.ofFn fun i => ((sketchControls[i.val]?).map Control.toWord).getD 0
  seqRom := #v[3, 6, 9, 12, 16, 18, 22, 25, 29, 32, 32, 32, 32, 32, 32, 32]
  ccRom := #v[0, 13, 0, 0]
  fetchState := sketchFetch
  muxOrder := .opTestHigh
  shiftValue := .a

end Sys2Proof.Machine
end

