-- ==== Sys2Proof/WellFormed.lean ====
section
/-! DEFINITION. The checks on instructions: the operand ranges an encoder must respect (R103), the reach of
a label (R102), and which machine instructions are canonical and have an assembler spelling (R95, R100, R101).
The fields of `Instr` have the widths of the encoding, so the range checks are made where operands are
still numbers, on `Asm`. -/

namespace Sys2Proof

/-- "Register operands 0 to 15" (R103). -/
def regInRange (n : Nat) : Bool := decide (n ≤ 15)

/-- "immval20 and offset20 from -524 288 to 524 287" (R103). -/
def field20InRange (v : Int) : Bool := decide (-524288 ≤ v) && decide (v ≤ 524287)

/-- "dist5 from 0 to 31" (R103). -/
def dist5InRange (n : Nat) : Bool := decide (n ≤ 31)

/-- The signed distance from the incremented PC of an instruction at word address `a` to the label `t` (R102). -/
def labelDistance (a t : Word) : Int := (t.toNat : Int) - ((a.toNat : Int) + 1)

/-- "The label is reachable when -524288 <= t - (a + 1) <= 524287" (R102). -/
def labelInReach (a t : Word) : Bool := field20InRange (labelDistance a t)

/-- A line of assembly, to be placed at word address `a`, has all its operands in range (R102, R103). -/
def Asm.wellFormed (a : Word) : Asm → Bool
  | .add dr sr1 sr2 => regInRange dr && regInRange sr1 && regInRange sr2
  | .addi dr sr1 v => regInRange dr && regInRange sr1 && field20InRange v
  | .nand dr sr1 sr2 => regInRange dr && regInRange sr1 && regInRange sr2
  | .brn t => labelInReach a t
  | .brz t => labelInReach a t
  | .brp t => labelInReach a t
  | .brnz t => labelInReach a t
  | .brzp t => labelInReach a t
  | .brnp t => labelInReach a t
  | .brnzp t => labelInReach a t
  | .br t => labelInReach a t
  | .jalr tgt ra => regInRange tgt && regInRange ra
  | .ldr dr v baseR => regInRange dr && field20InRange v && regInRange baseR
  | .lea dr t => regInRange dr && labelInReach a t
  | .str sr v baseR => regInRange sr && field20InRange v && regInRange baseR
  | .shfll dr sr1 d => regInRange dr && regInRange sr1 && dist5InRange d
  | .shfrl dr sr1 d => regInRange dr && regInRange sr1 && dist5InRange d
  | .shfra dr sr1 d => regInRange dr && regInRange sr1 && dist5InRange d
  | .halt => true

/-- The instruction is canonical: "the canonical encoding of SHFLL has A = 0" (R95, D16). Every other field
is an operand or, where unused, not part of `Instr` at all. -/
def Instr.canonical : Instr → Bool
  | .add _ _ _ => true
  | .addi _ _ _ => true
  | .nand _ _ _ => true
  | .br _ _ _ _ => true
  | .jalr _ _ => true
  | .ldr _ _ _ => true
  | .lea _ _ => true
  | .str _ _ _ => true
  | .shf _ _ arith right _ => right || !arith
  | .halt => true

/-- The instruction has an assembler spelling: it is canonical (R101), and a BR tests at least one flag,
since "the source lists no mnemonic for n = z = p = 0" (R100). -/
def Instr.spellable : Instr → Bool
  | .add _ _ _ => true
  | .addi _ _ _ => true
  | .nand _ _ _ => true
  | .br n z p _ => n || z || p
  | .jalr _ _ => true
  | .ldr _ _ _ => true
  | .lea _ _ => true
  | .str _ _ _ => true
  | .shf dr sr1 arith right d => Instr.canonical (.shf dr sr1 arith right d)
  | .halt => true

end Sys2Proof
end

