-- ==== Sys2Proof/Machine/Assembly.lean ====
section
/-! DEFINITION. What the spec settles of the assembler: the registers of Table 1 (R26), and the instruction each
line of assembly stands for (R98 to R103). An operand out of range is refused (R103, U13; log 29).
Directives, pseudo-instructions, number and label syntax are not in the source (R7, R98, R104). -/

namespace Sys2Proof

/-- A row of Table 1 "Registers and their Uses" (R26). -/
structure RegisterRow where
  /-- The register's number. -/
  number : RegNum
  /-- The assembler's spelling. -/
  name : String
  /-- The conventional use, which binds programs and not the hardware (R28 to R31). -/
  use : String
  /-- Whether a subroutine that uses the register restores it; `none` where the table says NA. -/
  calleeSave : Option Bool
  deriving DecidableEq, Repr

/-- Table 1 (R26). -/
def registerTable : List RegisterRow := [
  ⟨0, "$zero", "Always Zero", none⟩,
  ⟨1, "$at", "Reserved for the Assembler", none⟩,
  ⟨2, "$v0", "Return Value", some false⟩,
  ⟨3, "$a0", "Argument 1", some false⟩,
  ⟨4, "$a1", "Argument 2", some false⟩,
  ⟨5, "$a2", "Argument 3", some false⟩,
  ⟨6, "$t0", "Temporary Variable", some false⟩,
  ⟨7, "$t1", "Temporary Variable", some false⟩,
  ⟨8, "$t2", "Temporary Variable", some false⟩,
  ⟨9, "$s0", "Saved Register", some true⟩,
  ⟨10, "$s1", "Saved Register", some true⟩,
  ⟨11, "$s2", "Saved Register", some true⟩,
  ⟨12, "$k0", "Reserved for OS and Traps", none⟩,
  ⟨13, "$sp", "Stack Pointer", some false⟩,
  ⟨14, "$fp", "Frame Pointer", some true⟩,
  ⟨15, "$ra", "Return Address", some false⟩]

/-- The number of the register with a given name, if it is one of Table 1's, spelled letter for letter as the table
prints it. Whether register names are case-sensitive is not in the source (R98, N11): that `$ZERO` is no register here
is the model's choice (DESIGN CHOICE, log 29). -/
def registerNumber (name : String) : Option RegNum :=
  (registerTable.find? (fun row => row.name == name)).map (·.number)

/-- Whether a register is marked as callee-saved in Table 1. -/
def calleeSaved (r : RegNum) : Bool :=
  registerTable.any fun row => row.number == r && row.calleeSave == some true

/-- A register operand as its 4-bit field (R78). -/
def regField (n : Nat) : RegNum := BitVec.ofNat 4 n

/-- An immediate or offset operand as its 20-bit field, "stored as their low 20 bits in two's complement"
(R103). -/
def immField (v : Int) : Field20 := BitVec.ofInt 20 v

/-- `PCoffset20 = t - (a + 1)` as a 20-bit two's-complement number, for an instruction at `a` and a label at
`t` (R102). -/
def labelField (a t : Word) : Field20 := immField (labelDistance a t)

/-- A distance operand as its 5-bit field (R86). -/
def distField (n : Nat) : Dist5 := BitVec.ofNat 5 n

/-- The instruction a line of assembly at word address `a` stands for, its operands put into the fields R99 to
R101 give them. -/
def Asm.toInstr (a : Word) : Asm → Instr
  | .add dr sr1 sr2 => .add (regField dr) (regField sr1) (regField sr2)
  | .addi dr sr1 v => .addi (regField dr) (regField sr1) (immField v)
  | .nand dr sr1 sr2 => .nand (regField dr) (regField sr1) (regField sr2)
  | .brn t => .br true false false (labelField a t)
  | .brz t => .br false true false (labelField a t)
  | .brp t => .br false false true (labelField a t)
  | .brnz t => .br true true false (labelField a t)
  | .brzp t => .br false true true (labelField a t)
  | .brnp t => .br true false true (labelField a t)
  | .brnzp t => .br true true true (labelField a t)
  | .br t => .br true true true (labelField a t)
  | .jalr tgt ra => .jalr (regField ra) (regField tgt)
  | .ldr dr v baseR => .ldr (regField dr) (regField baseR) (immField v)
  | .lea dr t => .lea (regField dr) (labelField a t)
  | .str sr v baseR => .str (regField sr) (regField baseR) (immField v)
  | .shfll dr sr1 d => .shf (regField dr) (regField sr1) false false (distField d)
  | .shfrl dr sr1 d => .shf (regField dr) (regField sr1) false true (distField d)
  | .shfra dr sr1 d => .shf (regField dr) (regField sr1) true true (distField d)
  | .halt => .halt

/-- The instruction a line of assembly at word address `a` stands for; none when an operand is out of range
or a label out of reach (R102, R103). -/
def assemble (a : Word) (line : Asm) : Option Instr :=
  if line.wellFormed a then some (line.toInstr a) else none

end Sys2Proof
end

