-- ==== Sys2Proof/Machine/Boot.lean ====
section
/-! DEFINITION. What the host does before the first step: it places a program image in memory (R222, D18; log 5).
It does nothing while the machine runs. -/

namespace Sys2Proof.Machine

/-- The words of an image placed at consecutive word addresses from `base` (R222). -/
def State.loadImage (s : State) (base : Word) (image : List Word) : State :=
  match image with
  | [] => s
  | w :: rest => (s.memWrite base w).loadImage (base + 1#32) rest

/-- The machine at the start of a run: the state after reset with the image at `load_base` (R218, R222). -/
def State.boot (image : List Word) : State := State.reset.loadImage Config.loadBase image

end Sys2Proof.Machine
end

