-- ==== Sys2Proof/Safety.lean ====
section
/-! DEFINITION. The terms claims are made in: what an instruction leaves unchanged, what a well-kept state is, what
a program must have set up before it reads (R224, R225), and how a run ends (R223). -/

namespace Sys2Proof.Machine

/-! ### Frames -/

/-- The word at a word address reads as before, and has been written exactly if it had been. A word is the smallest
thing memory holds (R50, R56). -/
def State.sameCell (s t : State) (a : Nat) : Prop :=
  t.wordAt a = s.wordAt a ∧ (readCell t.mem a).isSome = (readCell s.mem a).isSome

/-- Every word of memory is as before. -/
def State.sameMemory (s t : State) : Prop := ∀ a, s.sameCell t a

/-- Every general register other than `r` reads as before, and has been written exactly if it had been. -/
def State.sameRegsExcept (s t : State) (r : RegNum) : Prop :=
  ∀ q, q ≠ r → t.readReg q = s.readReg q ∧ t.regReady q = s.regReady q

/-- Every general register reads as before, and has been written exactly if it had been. -/
def State.sameRegs (s t : State) : Prop := ∀ q, t.readReg q = s.readReg q ∧ t.regReady q = s.regReady q

/-- N, Z and P are as before, and have been written exactly if they had been. -/
def State.sameFlags (s t : State) : Prop := t.flags = s.flags ∧ t.ccWritten = s.ccWritten

/-- The flags are written, and say of `v` what R38 says: N if negative, Z if zero, P if positive. -/
def State.flagsDescribe (t : State) (v : Word) : Prop :=
  t.ccWritten = true ∧ (t.flags.n = true ↔ v.toInt < 0) ∧ (t.flags.z = true ↔ v.toInt = 0) ∧
    (t.flags.p = true ↔ 0 < v.toInt)

/-- The machine is neither more nor less halted than it was, and no free value has been drawn. -/
def State.sameControl (s t : State) : Prop := t.halted = s.halted ∧ t.draws = s.draws

/-- What an instruction marked `+` with destination `dr` and result `r` leaves: `r` in `dr`, which stays 0 if it
is register 0; flags that describe `r`; the pc advanced; every other register and every word of memory as before. -/
structure State.delivered (s t : State) (dr : RegNum) (r : Word) : Prop where
  result : t.readReg dr = if dr = 0#4 then 0#32 else r
  resultReady : t.regReady dr = true
  otherRegs : s.sameRegsExcept t dr
  flags : t.flagsDescribe r
  pc : t.pc = s.pc + 1#32
  memory : s.sameMemory t
  control : s.sameControl t

/-- Two addresses name the same word: they are equal modulo 2^24 (R51). -/
abbrev sameWord (a b : Word) : Prop := a.toNat % 2 ^ 24 = b.toNat % 2 ^ 24

/-! ### What an instruction names (R32, R39) -/

/-- The general register an instruction writes, by its encoding field (R32). -/
def destination : Instr → Option RegNum
  | .add dr _ _ => some dr
  | .addi dr _ _ => some dr
  | .nand dr _ _ => some dr
  | .br _ _ _ _ => none
  | .jalr ra _ => some ra
  | .ldr dr _ _ => some dr
  | .lea dr _ => some dr
  | .str _ _ _ => none
  | .shf dr _ _ _ _ => some dr
  | .halt => none

/-- The general registers an instruction reads, by its encoding fields (R32). -/
def sources : Instr → List RegNum
  | .add _ sr1 sr2 => [sr1, sr2]
  | .addi _ sr1 _ => [sr1]
  | .nand _ sr1 sr2 => [sr1, sr2]
  | .br _ _ _ _ => []
  | .jalr _ tgt => [tgt]
  | .ldr _ baseR _ => [baseR]
  | .lea _ _ => []
  | .str sr baseR _ => [sr, baseR]
  | .shf _ sr1 _ _ _ => [sr1]
  | .halt => []

/-- "The following instructions modify the Condition Codes (CC) register: ADD, ADDI, NAND, LDR, LEA, SHF" (R39). -/
def setsFlags : Instr → Bool
  | .add _ _ _ => true
  | .addi _ _ _ => true
  | .nand _ _ _ => true
  | .br _ _ _ _ => false
  | .jalr _ _ => false
  | .ldr _ _ _ => true
  | .lea _ _ => true
  | .str _ _ _ => false
  | .shf _ _ _ _ _ => true
  | .halt => false

/-- The address the next step stores to, if the word it fetches is a STR (R132). -/
def State.storeAddress (s : State) : Option Word :=
  match decode s.fetch with
  | .ok (.str _ baseR off) => some (s.baseAddress baseR off)
  | _ => none

/-- The next step stores to the word `a` names. -/
def State.storesTo (s : State) (a : Word) : Bool :=
  match s.storeAddress with
  | some ea => decide (sameWord ea a)
  | none => false

/-- None of the next `k` steps stores to the word `a` names. -/
def State.noStoreFor (a : Word) : Nat → State → Bool
  | 0, _ => true
  | k + 1, s => !s.storesTo a && match step s with
    | .next t => State.noStoreFor a k t
    | _ => true

/-! ### Well-kept states -/

/-- Exactly one of N, Z, P is 1 (R38). -/
def Flags.oneHot (f : Flags) : Prop :=
  f = { n := true, z := false, p := false } ∨ f = { n := false, z := true, p := false } ∨
    f = { n := false, z := false, p := true }

/-- The invariant of the machine: the memory is in canonical form, once the flags are written exactly one is 1
(R38), and register 0 and the registers and flags nothing has written hold their placeholders. -/
structure State.Inv (s : State) : Prop where
  memory : s.mem.wf
  flagsOneHot : s.ccWritten = true → s.cc.oneHot
  flagsPlaceholder : s.ccWritten = false → s.cc = State.reset.cc
  regsPlaceholder : ∀ i : Fin 16, s.regWritten[i] = false → s.regs[i] = 0#32
  zeroUnwritten : s.regWritten[0] = false

/-! ### What a program must have set up (R197, R224, R225) -/

/-- Everything the instruction reads has been given a value: its source registers (R32; JALR reads AT after
writing RA), the flags if a BR tests any (R121), and the word an LDR loads (R218). -/
def instrReady (i : Instr) (s : State) : Bool :=
  match i with
  | .add _ sr1 sr2 => s.regReady sr1 && s.regReady sr2
  | .addi _ sr1 _ => s.regReady sr1
  | .nand _ sr1 sr2 => s.regReady sr1 && s.regReady sr2
  | .br n z p _ => s.ccWritten || !(n || z || p)
  | .jalr ra tgt => (s.writeReg ra s.pc1).regReady tgt
  | .ldr _ baseR off => s.regReady baseR && s.memReady (s.baseAddress baseR off)
  | .lea _ _ => true
  | .str sr baseR _ => s.regReady sr && s.regReady baseR
  | .shf _ sr1 _ _ _ => s.regReady sr1
  | .halt => true

/-- The next step runs an instruction that something has placed in memory and that reads nothing unwritten: the
steps that do not fault under the treatment 93_implementation_defined.md recommends (U1, U6, U7; log 19). -/
def State.cleanStep (s : State) : Bool :=
  !s.halted && s.memReady s.pc &&
    match decode s.fetch with
    | .ok i => instrReady i s
    | .error _ => false

/-- `t` is `s` with some of what nothing has written given arbitrary contents: everything `s` has a value for is
the same in `t`. Of a halted machine the pc is not mentioned (R151, log 16). -/
structure State.completes (s t : State) : Prop where
  pc : s.halted = false → t.pc = s.pc
  halted : t.halted = s.halted
  draws : t.draws = s.draws
  regs : ∀ r, s.regReady r = true → t.regReady r = true ∧ t.readReg r = s.readReg r
  flags : s.ccWritten = true → t.ccWritten = true ∧ t.flags = s.flags
  memory : ∀ a b, readCell s.mem a = some b → readCell t.mem a = some b

/-- The next `k` steps are clean, each from the state the one before it leaves. -/
def State.cleanFor : Nat → State → Bool
  | 0, _ => true
  | k + 1, s => s.cleanStep && match step s with
    | .next t => State.cleanFor k t
    | _ => true

/-! ### Runs (R223) -/

/-- What the host may read as a program's result: registers, flags and memory, not the pc (R151, R223). -/
structure RunResult where
  /-- x[0] to x[15]. -/
  regs : Vector Word 16
  /-- N, Z, P. -/
  flags : Flags
  /-- The words of memory by word address, as far as they have been written (R56). -/
  mem : Memory
  deriving DecidableEq, Repr

/-- The result a state holds. -/
def State.result (s : State) : RunResult where
  regs := Vector.ofFn fun i => s.readReg (BitVec.ofFin i)
  flags := s.flags
  mem := s.mem

/-- A run of `k` steps from `s` is finished, in `t`: a HALT has executed, no step on the way was refused, and none
read unwritten state, since a run that does "has gone wrong and is not a finished run either" (R223; the predicate
is log 19). -/
structure State.finishes (s : State) (k : Nat) (t : State) : Prop where
  run : Sys2Proof.core.run k s = .next t
  halted : t.halted = true
  clean : State.cleanFor k s = true

/-- A run that never ends: a hang (R223, U10). -/
def State.hangs (s : State) : Prop := ∀ k, ∃ t : State, Sys2Proof.core.run k s = .next t ∧ t.halted = false

/-- The callee-save convention of Table 1, which binds programs and not the hardware (R26, R29, R123). -/
def State.keepsSavedRegs (s t : State) : Prop := ∀ r, calleeSaved r = true → t.readReg r = s.readReg r

end Sys2Proof.Machine
end

