-- ==== Sys2Proof/Machine/Cycle.lean ====
section
/-! DEFINITION. The instruction cycle as a condition on the ROM contents (R170), and what makes them a microprogram
of this machine: "constrained by 49_datapath_and_microcontrol.md rule R170 to implement the instruction rules of files
40 to 44" (D23; log 22). -/

namespace Sys2Proof.Machine

/-! ### How microstates are linked (R161, R170) -/

/-- The NextState field decides what follows the microstate: neither OPTest nor ChkCC is asserted (R161). -/
def linked (cfg : MicroConfig) (u : UState) : Bool := !(controlOf cfg u).opTest && !(controlOf cfg u).chkCc

/-- The opcode decides what follows the microstate: OPTest alone is asserted, as at the end of FETCH (R161, R170). -/
def dispatches (cfg : MicroConfig) (u : UState) : Bool := (controlOf cfg u).opTest && !(controlOf cfg u).chkCc

/-- CCMatch decides what follows the microstate: ChkCC alone is asserted, as in BR (R161, R170). -/
def testsFlags (cfg : MicroConfig) (u : UState) : Bool := !(controlOf cfg u).opTest && (controlOf cfg u).chkCc

/-- The microstate can be the last one of an instruction: it "names the first FETCH microstate as its next state"
(R170). -/
def namesFetch (cfg : MicroConfig) (u : UState) : Bool :=
  linked cfg u && (controlOf cfg u).nextState == cfg.fetchState

/-- Among the first `k` microstates that NextState fields link from `u` on there is one with the property `p`. -/
def leadsTo (cfg : MicroConfig) (p : UState → Bool) : Nat → UState → Bool
  | 0, _ => false
  | k + 1, u => p u || (linked cfg u && leadsTo cfg p k (controlOf cfg u).nextState)

/-- The first `k` microstates from `u` on are linked by NextState fields, and none is the first FETCH microstate. -/
def staysAway (cfg : MicroConfig) : Nat → UState → Bool
  | 0, _ => true
  | k + 1, u => u != cfg.fetchState && linked cfg u && staysAway cfg k (controlOf cfg u).nextState

/-- The number of microstates there can be (R158); a chain of linked microstates repeats itself beyond it. -/
def microstates : Nat := 64

/-- The linked microstates from `u` on end in one that names the first FETCH microstate. -/
def returnsFrom (cfg : MicroConfig) (u : UState) : Bool := leadsTo cfg (namesFetch cfg) microstates u

/-- The opcodes whose microstates NextState fields alone link: all but BR and HALT (R170, R91). -/
def linkedOpcodes : List Opcode := [0b0000, 0b0001, 0b0010, 0b0100, 0b0101, 0b0110, 0b0111, 0b1000]

/-- The cycle of R170, as far as the three ROMs show it: FETCH is a chain of microstates at whose end OPTest is
asserted; the microstates of an instruction are linked by their NextState fields and the last one names the first
FETCH microstate; in BR one microstate asserts ChkCC, and after it both the branch-taken microstates and the not-taken
continuation come back to FETCH; HALT never leads back to it. -/
def followsCycle (cfg : MicroConfig) : Bool :=
  leadsTo cfg (dispatches cfg) microstates cfg.fetchState &&
  linkedOpcodes.all (fun op => returnsFrom cfg (seqStart cfg op)) &&
  leadsTo cfg (testsFlags cfg) microstates (seqStart cfg 0b0011#4) &&
  (ccStart cfg false == cfg.fetchState || returnsFrom cfg (ccStart cfg false)) &&
  (ccStart cfg true == cfg.fetchState || returnsFrom cfg (ccStart cfg true)) &&
  staysAway cfg microstates (seqStart cfg 0b1111#4)

/-! ### What makes ROM contents a microprogram of this machine (R170, D23) -/

/-- Two architectural states are the same but for the model's own count of free values. -/
def State.sameBut (s t : State) : Prop := t = { s with draws := t.draws }

/-- The ROM contents implement the instruction rules by the cycle of R170. -/
structure Implements (cfg : MicroConfig) : Prop where
  /-- The microstates are linked as R170 says. -/
  cycle : followsCycle cfg = true
  /-- FETCH brings "the word at the PC into the IR", and the sequencer ROM sends the machine to the first microstate
  of its opcode. -/
  fetch : ∀ m : MicroState, m.ustate = cfg.fetchState →
    ∃ n m', microRun cfg (n + 1) m = .next m' ∧ m'.ir = m.arch.fetch ∧ m'.ustate = seqStart cfg (fieldOp m.arch.fetch)
  /-- Each instruction but HALT comes back to FETCH, for the first time with all its effects done and no others: "One
  instruction is therefore completely executed before the next is fetched". -/
  instruction : ∀ (m : MicroState) (i : Instr) (t : State), m.ustate = cfg.fetchState →
    decode m.arch.fetch = .ok i → i ≠ .halt → exec i m.arch = .next t →
    ∃ n m', microRun cfg (n + 1) m = .next m' ∧ m'.ustate = cfg.fetchState ∧ t.sameBut m'.arch ∧
      ∀ j < n, ∀ mj, microRun cfg (j + 1) m = .next mj → mj.ustate ≠ cfg.fetchState
  /-- HALT never comes back to FETCH, and keeps registers, flags and memory; of the pc nothing is said (R151). -/
  halt : ∀ m : MicroState, m.ustate = cfg.fetchState → decode m.arch.fetch = .ok .halt →
    ∀ k, ∃ m', microRun cfg (k + 1) m = .next m' ∧ m'.ustate ≠ cfg.fetchState ∧
      m.arch.sameRegs m'.arch ∧ m.arch.sameFlags m'.arch ∧ m.arch.sameMemory m'.arch

/-- The machine's own microcode: any ROM contents that follow the cycle (R170, R171, D23). It is the free value
`Config.micro` where R170 does not rule that out, and the sketch where it does (DESIGN CHOICE, log 22), so nothing can
be proved of it but what holds of every contents that follow the cycle. -/
def microcode : MicroConfig := if followsCycle Config.micro then Config.micro else sketchConfig

/-- The micro machine at start-up with the machine's own microcode (R220). -/
def MicroState.start : MicroState := MicroState.reset microcode

end Sys2Proof.Machine
end

