-- ==== Sys2Proof/Certificates/Slice0/Obligations.lean ====
section
/-! DEFINITION. The statements for the provers. Each formalises numbered rules of the spec, or says what the
model chose and names the log entry. -/

open Sys2Proof Sys2Proof.Machine

/-! ### The ten instructions: decoding, completion, result, flags, frame -/

/-- R111, with the encoding R79: ADD completes in every state; DR receives the sum of SR1 and SR2, the flags
describe the sum, bits 19:4 are not looked at, nothing else changes. -/
def Obligations.AddDeliversSum : Prop :=
  (∀ w : Word, w.extractLsb' 28 4 = 0b0000#4 →
    decode w = .ok (.add (w.extractLsb' 24 4) (w.extractLsb' 20 4) (w.extractLsb' 0 4))) ∧
  ∀ (dr sr1 sr2 : RegNum) (s : State), ∃ t, exec (.add dr sr1 sr2) s = .next t ∧
    s.delivered t dr (s.readReg sr1 + s.readReg sr2)

/-- R112, with the encoding R80: ADDI completes in every state; DR receives SR1 plus the sign-extended immediate. -/
def Obligations.AddiDeliversSumWithSignExtendedImmediate : Prop :=
  (∀ w : Word, w.extractLsb' 28 4 = 0b0001#4 →
    decode w = .ok (.addi (w.extractLsb' 24 4) (w.extractLsb' 20 4) (w.extractLsb' 0 20))) ∧
  ∀ (dr sr1 : RegNum) (imm : Field20) (s : State), ∃ t, exec (.addi dr sr1 imm) s = .next t ∧
    s.delivered t dr (s.readReg sr1 + imm.signExtend 32)

/-- R113, with the encoding R79: NAND completes in every state; bit i of the result is 0 exactly when bit i of both
sources is 1. -/
def Obligations.NandDeliversComplementOfAnd : Prop :=
  (∀ w : Word, w.extractLsb' 28 4 = 0b0010#4 →
    decode w = .ok (.nand (w.extractLsb' 24 4) (w.extractLsb' 20 4) (w.extractLsb' 0 4))) ∧
  ∀ (dr sr1 sr2 : RegNum) (s : State), ∃ t r, exec (.nand dr sr1 sr2) s = .next t ∧ s.delivered t dr r ∧
    ∀ i < 32, (r.getLsbD i = false ↔ (s.readReg sr1).getLsbD i = true ∧ (s.readReg sr2).getLsbD i = true)

/-- R120, with the encoding R81 and the check R94: BR completes in every state; it goes to the incremented PC plus
the sign-extended offset if a tested flag is 1 and to the incremented PC otherwise; nothing else changes. -/
def Obligations.BrBranchesOnTestedFlag : Prop :=
  (∀ w : Word, w.extractLsb' 28 4 = 0b0011#4 → w.extractLsb' 23 5 = 0#5 →
    decode w = .ok (.br (w.getLsbD 22) (w.getLsbD 21) (w.getLsbD 20) (w.extractLsb' 0 20))) ∧
  ∀ (n z p : Bool) (off : Field20) (s : State), ∃ t, exec (.br n z p off) s = .next t ∧
    ((n = true ∧ s.flags.n = true ∨ z = true ∧ s.flags.z = true ∨ p = true ∧ s.flags.p = true) →
      t.pc = s.pc + 1#32 + off.signExtend 32) ∧
    (¬(n = true ∧ s.flags.n = true ∨ z = true ∧ s.flags.z = true ∨ p = true ∧ s.flags.p = true) →
      t.pc = s.pc + 1#32) ∧
    s.sameRegs t ∧ s.sameFlags t ∧ s.sameMemory t ∧ s.sameControl t

/-- R122, with the encoding R82: JALR completes in every state; RA receives the incremented PC unless it is register
0; the pc receives AT as it reads after that write, so with RA = AT (not 0) it is the incremented PC; the flags and
memory do not change. The case RA = AT is the spec's own choice D20 (log 15). -/
def Obligations.JalrLinksThenJumps : Prop :=
  (∀ w : Word, w.extractLsb' 28 4 = 0b0100#4 →
    decode w = .ok (.jalr (w.extractLsb' 24 4) (w.extractLsb' 20 4))) ∧
  ∀ (ra tgt : RegNum) (s : State), ∃ t, exec (.jalr ra tgt) s = .next t ∧
    t.readReg ra = (if ra = 0#4 then 0#32 else s.pc + 1#32) ∧ t.regReady ra = true ∧ s.sameRegsExcept t ra ∧
    t.pc = (if tgt = ra ∧ ra ≠ 0#4 then s.pc + 1#32 else s.readReg tgt) ∧
    s.sameFlags t ∧ s.sameMemory t ∧ s.sameControl t

/-- R130, with the encoding R80: LDR completes in every state and for every address; DR receives the word at base
plus offset and the flags describe that word. -/
def Obligations.LdrDeliversWordAtBasePlusOffset : Prop :=
  (∀ w : Word, w.extractLsb' 28 4 = 0b0101#4 →
    decode w = .ok (.ldr (w.extractLsb' 24 4) (w.extractLsb' 20 4) (w.extractLsb' 0 20))) ∧
  ∀ (dr baseR : RegNum) (off : Field20) (s : State), ∃ t, exec (.ldr dr baseR off) s = .next t ∧
    s.delivered t dr (s.memRead (s.readReg baseR + off.signExtend 32))

/-- R131, with the encoding R83: LEA completes in every state; DR receives all 32 bits of the incremented PC plus
the sign-extended offset; bits 23:20 are not looked at. -/
def Obligations.LeaDeliversPcRelativeAddress : Prop :=
  (∀ w : Word, w.extractLsb' 28 4 = 0b0110#4 → decode w = .ok (.lea (w.extractLsb' 24 4) (w.extractLsb' 0 20))) ∧
  ∀ (dr : RegNum) (off : Field20) (s : State), ∃ t, exec (.lea dr off) s = .next t ∧
    s.delivered t dr (s.pc + 1#32 + off.signExtend 32)

/-- R132, with the encoding R80: STR completes in every state and for every address; the word at base plus offset
becomes the word in SR, every other word is as before, no register and no flag changes. -/
def Obligations.StrStoresWordAtBasePlusOffset : Prop :=
  (∀ w : Word, w.extractLsb' 28 4 = 0b0111#4 →
    decode w = .ok (.str (w.extractLsb' 24 4) (w.extractLsb' 20 4) (w.extractLsb' 0 20))) ∧
  ∀ (sr baseR : RegNum) (off : Field20) (s : State), ∃ t, exec (.str sr baseR off) s = .next t ∧
    t.memRead (s.readReg baseR + off.signExtend 32) = s.readReg sr ∧
    t.memReady (s.readReg baseR + off.signExtend 32) = true ∧
    (∀ a, a ≠ wordCell (s.readReg baseR + off.signExtend 32) → s.sameCell t a) ∧
    t.pc = s.pc + 1#32 ∧ s.sameRegs t ∧ s.sameFlags t ∧ s.sameControl t

/-- R140, with the encodings R80 and R86: SHF completes in every state; the result is given bit by bit for a left
shift (D = 0, whatever A is), a right logical shift and a right arithmetic shift by 0 to 31. -/
def Obligations.ShfDeliversShiftedValue : Prop :=
  (∀ w : Word, w.extractLsb' 28 4 = 0b1000#4 →
    decode w = .ok (.shf (w.extractLsb' 24 4) (w.extractLsb' 20 4) (w.getLsbD 19) (w.getLsbD 18) (w.extractLsb' 0 5))) ∧
  ∀ (dr sr1 : RegNum) (arith right : Bool) (dist : Dist5) (s : State), ∃ t r,
    exec (.shf dr sr1 arith right dist) s = .next t ∧ s.delivered t dr r ∧
    ∀ i < 32, r.getLsbD i =
      if right = false then
        if dist.toNat ≤ i then (s.readReg sr1).getLsbD (i - dist.toNat) else false
      else if i + dist.toNat ≤ 31 then (s.readReg sr1).getLsbD (i + dist.toNat)
      else if arith = true then (s.readReg sr1).getLsbD 31 else false

/-- R150, with the encoding R84: every word with opcode 1111 is a HALT; it completes in every state, halts the
machine, and keeps registers, flags and memory. The pc afterwards is not mentioned (R151). -/
def Obligations.HaltStopsAndKeepsState : Prop :=
  (∀ w : Word, w.extractLsb' 28 4 = 0b1111#4 → decode w = .ok .halt) ∧
  ∀ s : State, ∃ t, exec .halt s = .next t ∧ t.halted = true ∧
    s.sameRegs t ∧ s.sameFlags t ∧ s.sameMemory t ∧ ∀ t', step t ≠ .next t'

/-! ### The step and decoding -/

/-- R18: a running machine whose word at the pc decodes to an instruction performs exactly that instruction; a
halted machine has no step. -/
def Obligations.StepRunsFetchedInstruction : Prop :=
  ∀ s : State,
    (s.halted = true → step s = .fault .halted) ∧
    (s.halted = false → ∀ i, decode (s.memRead s.pc) = .ok i → step s = exec i s)

/-- R18 and R222 (log 5): placing a word that decodes to an instruction where the next step fetches makes the next
step perform exactly that instruction. -/
def Obligations.PlacedInstructionIsRun : Prop :=
  ∀ (s : State) (w : Nat) (i : Instr), decode (BitVec.ofNat 32 w) = .ok i →
    step (s.withFetchWord 32 w) = exec i (s.withFetchWord 32 w)

/-- R92 (the refusal is the spec's own choice D3, log 8): a step refuses a word for its opcode exactly when its bits
31:28 are one of 1001 to 1110. -/
def Obligations.UndefinedOpcodesAreRefused : Prop :=
  ∀ s : State, step s = .refused .undefinedOpcode ↔
    s.halted = false ∧ 9 ≤ ((s.memRead s.pc).extractLsb' 28 4).toNat ∧ ((s.memRead s.pc).extractLsb' 28 4).toNat ≤ 14

/-- R94 (the refusal is the spec's own choice D5, log 10): a step refuses a word for reserved BR bits exactly when
its opcode is 0011 and a bit of 27:23 is 1. -/
def Obligations.ReservedBrBitsAreRefused : Prop :=
  ∀ s : State, step s = .refused .reservedBrBits ↔
    s.halted = false ∧ (s.memRead s.pc).extractLsb' 28 4 = 0b0011#4 ∧ (s.memRead s.pc).extractLsb' 23 5 ≠ 0#5

/-- R190, R191, R197: a step has no outcome but a next state, the two refusals of R92 and R94, and the stop of a halted
machine (log 8, log 10, log 17, log 21); in particular no fetched instruction faults or traps. That a read of unwritten
flags, registers or memory, which R191 and R197 leave as fault or draw, is no fault is the model's choice of the draw
(DESIGN CHOICE, log 19, with log 1, log 2, log 3). -/
def Obligations.StepHasNoOtherOutcome : Prop :=
  ∀ s : State, (∃ i t, s.halted = false ∧ decode s.fetch = .ok i ∧ exec i s = .next t ∧ step s = .next t) ∨
    (s.halted = false ∧ decode s.fetch = .error .undefinedOpcode ∧ step s = .refused .undefinedOpcode) ∨
    (s.halted = false ∧ decode s.fetch = .error .reservedBrBits ∧ step s = .refused .reservedBrBits) ∨
    (s.halted = true ∧ step s = .fault .halted)

/-- R76, R79 to R86: decoding the canonical word of any instruction, with every operand at every value of its field,
gives the instruction back. -/
def Obligations.DecodeOfEncode : Prop := ∀ i : Instr, decode (encode i) = .ok i

/-- R90, R93 (unused bits ignored: the spec's own choice D4, log 9): a word that decodes to an instruction is that
instruction's canonical word but for the unused bits. -/
def Obligations.EncodeOfDecodeUpToUnusedBits : Prop :=
  ∀ (w : Word) (i : Instr), decode w = .ok i → encode i = w &&& usedBits i

/-- R93 (the spec's own choice D4, log 9): two words that differ only in unused bits are the same instruction. -/
def Obligations.UnusedBitsDoNotMatter : Prop :=
  ∀ (w w' : Word) (i : Instr), decode w = .ok i → w' &&& usedBits i = w &&& usedBits i → decode w' = .ok i

/-- R105: the encoded examples, one for each instruction, encode and decode as the spec prints them. -/
def Obligations.EncodedExamples : Prop :=
  ∀ e ∈ ([(.add 2 3 4, 0x02300004#32), (.addi 6 6 0xFFFFF, 0x166FFFFF#32), (.nand 6 3 8, 0x26300008#32),
      (.br false false true 0xFFFFD, 0x301FFFFD#32), (.jalr 15 6, 0x4F600000#32), (.ldr 7 3 1, 0x57300001#32),
      (.lea 3 7, 0x63000007#32), (.str 8 3 2, 0x78300002#32), (.shf 3 3 true true 1, 0x833C0001#32),
      (.halt, 0xF0000000#32)] : List (Instr × Word)),
    encode e.1 = e.2 ∧ decode e.2 = .ok e.1

/-! ### Rules over all instructions -/

/-- R32 and R27: an instruction changes no general register but the one its encoding names as destination, and
register 0 not even then. -/
def Obligations.OnlyTheDestinationRegisterChanges : Prop :=
  ∀ (i : Instr) (s t : State), exec i s = .next t →
    ∀ q, (destination i ≠ some q ∨ q = 0#4) → t.readReg q = s.readReg q ∧ t.regReady q = s.regReady q

/-- R32: an instruction sees no general register but those its encoding names as sources: two states that agree on
these, the pc, the flags, the memory and whether the machine has halted give results that agree on the flags, the
memory, the destination and, unless the machine is then halted (R151, log 16), the pc. -/
def Obligations.OnlyTheSourceRegistersMatter : Prop :=
  ∀ (i : Instr) (s s' : State), (∀ q ∈ sources i, s'.readReg q = s.readReg q) → s'.pc = s.pc →
    s'.flags = s.flags → s'.mem = s.mem → s'.halted = s.halted →
    ∃ t t', exec i s = .next t ∧ exec i s' = .next t' ∧ t'.halted = t.halted ∧ (t.halted = false → t'.pc = t.pc) ∧
      t'.flags = t.flags ∧ t'.mem = t.mem ∧ ∀ d, destination i = some d → t'.readReg d = t.readReg d

/-- R35 (derived by the spec from R34; JALR with RA = AT is D20, log 15; modulo 2^32 is D1 and D7, log 7, log 11):
the next pc of every instruction, by the table of the rule; HALT's is not defined. -/
def Obligations.NextPcTable : Prop :=
  ∀ (i : Instr) (s t : State), exec i s = .next t →
    match i with
    | .add _ _ _ => t.pc = s.pc + 1#32
    | .addi _ _ _ => t.pc = s.pc + 1#32
    | .nand _ _ _ => t.pc = s.pc + 1#32
    | .ldr _ _ _ => t.pc = s.pc + 1#32
    | .lea _ _ => t.pc = s.pc + 1#32
    | .str _ _ _ => t.pc = s.pc + 1#32
    | .shf _ _ _ _ _ => t.pc = s.pc + 1#32
    | .br n z p off =>
      t.pc = if (n && s.flags.n || z && s.flags.z || p && s.flags.p) = true then s.pc + 1#32 + off.signExtend 32
        else s.pc + 1#32
    | .jalr ra tgt => t.pc = if tgt = ra ∧ ra ≠ 0#4 then s.pc + 1#32 else s.readReg tgt
    | .halt => True

/-- R39 and R38: ADD, ADDI, NAND, LDR, LEA and SHF leave exactly one flag set, the other four instructions leave the
flags alone. With DR = 0 too (D10, log 13); that the other two flags are cleared is the spec's derivation (log
14). -/
def Obligations.FlagsAreWrittenByExactlySix : Prop :=
  ∀ (i : Instr) (s t : State), exec i s = .next t →
    (setsFlags i = true → t.ccWritten = true ∧ t.flags.oneHot) ∧ (setsFlags i = false → s.sameFlags t)

/-- R15: SetCC of a value sets N if its signed reading is negative, Z if zero, P if positive, and clears the other
two. -/
def Obligations.SetCCDescribesSign : Prop :=
  ∀ (s : State) (v : Word), (s.setCC v).flagsDescribe v ∧ (s.setCC v).flags.oneHot

/-- R42: a running machine is halted by a step exactly when the step runs a HALT, and a halted machine stays halted
because it has no step. -/
def Obligations.OnlyHaltHalts : Prop :=
  ∀ s t : State, step s = .next t → s.halted = false ∧ (t.halted = true ↔ decode s.fetch = .ok .halt)

/-- R54, R58: a word of memory changes in a step only if the step runs a STR to it. -/
def Obligations.OnlyAStoreChangesMemory : Prop :=
  ∀ s t : State, step s = .next t → ∀ a, ¬s.sameCell t a →
    ∃ sr baseR off, decode s.fetch = .ok (.str sr baseR off) ∧ a = wordCell (s.readReg baseR + off.signExtend 32)

/-- R13: sign extension keeps the low 20 bits, copies bit 19 into bits 31:20, and keeps the signed value, which lies
in -524288 to 524287. -/
def Obligations.SignExtensionOfFields : Prop :=
  ∀ v : Field20, (∀ i < 32, (sext20 v).getLsbD i = if i < 20 then v.getLsbD i else v.getLsbD 19) ∧
    (sext20 v).toInt = v.toInt ∧ -524288 ≤ v.toInt ∧ v.toInt ≤ 524287

/-- R110 (the spec's own choice D7, log 11): the sums of ADD and ADDI are taken modulo 2^32, and are the exact
signed sums when these fit. -/
def Obligations.AdditionIsModulo2Pow32 : Prop :=
  ∀ (dr sr1 sr2 : RegNum) (imm : Field20) (s : State), dr ≠ 0#4 →
    (∃ t, exec (.add dr sr1 sr2) s = .next t ∧
      (t.readReg dr).toNat = ((s.readReg sr1).toNat + (s.readReg sr2).toNat) % 2 ^ 32 ∧
      (-2 ^ 31 ≤ (s.readReg sr1).toInt + (s.readReg sr2).toInt →
        (s.readReg sr1).toInt + (s.readReg sr2).toInt < 2 ^ 31 →
        (t.readReg dr).toInt = (s.readReg sr1).toInt + (s.readReg sr2).toInt)) ∧
    (∃ t, exec (.addi dr sr1 imm) s = .next t ∧
      (t.readReg dr).toNat = ((s.readReg sr1).toNat + (imm.signExtend 32).toNat) % 2 ^ 32 ∧
      (-2 ^ 31 ≤ (s.readReg sr1).toInt + imm.toInt → (s.readReg sr1).toInt + imm.toInt < 2 ^ 31 →
        (t.readReg dr).toInt = (s.readReg sr1).toInt + imm.toInt))

/-- R121 (the draw, which the model chose: log 2): on flags nothing has written, a BR with n = z = p = 0 is not
taken; any other is taken or not by the free start-up bits it tests. -/
def Obligations.BrOnUnwrittenFlagsIsADraw : Prop :=
  ∀ (n z p : Bool) (off : Field20) (s : State), s.ccWritten = false →
    ∃ t, exec (.br n z p off) s = .next t ∧
      (n = false → z = false → p = false → t.pc = s.pc + 1#32) ∧
      ((n && Config.startN || z && Config.startZ || p && Config.startP) = true →
        t.pc = s.pc + 1#32 + off.signExtend 32) ∧
      ((n && Config.startN || z && Config.startZ || p && Config.startP) = false → t.pc = s.pc + 1#32)

/-- R120 (c) and U10: a BR to itself whose condition is true loops for ever: every step leaves the state as it
is. -/
def Obligations.BranchToSelfLoopsForEver : Prop :=
  ∀ (s : State) (n z p : Bool), s.halted = false → decode s.fetch = .ok (.br n z p 0xFFFFF#20) →
    (n && s.flags.n || z && s.flags.z || p && s.flags.p) = true →
    s.hangs ∧ ∀ k, Sys2Proof.core.run k s = .next s

/-! ### Memory -/

/-- R51: two addresses name the same word exactly when they are equal modulo 2^24, and a read, a write and a fetch
ignore the upper eight bits. -/
def Obligations.AddressesAliasModulo2Pow24 : Prop :=
  ∀ a b : Word, (wordCell a = wordCell b ↔ a.toNat % 2 ^ 24 = b.toNat % 2 ^ 24) ∧
    (a.toNat % 2 ^ 24 = b.toNat % 2 ^ 24 →
      ∀ (s : State) (v : Word), s.memRead a = s.memRead b ∧ s.memWrite a v = s.memWrite b v ∧
        (s.setPc a).fetch = (s.setPc b).fetch)

/-- R55: the effective address of LDR and STR, truncated, is the sum modulo 2^24 of the truncated base and the
offset; negative offsets wrap below address 0. -/
def Obligations.EffectiveAddressWrapsAt24Bits : Prop :=
  (∀ (s : State) (baseR : RegNum) (off : Field20), ((wordAddress (s.baseAddress baseR off)).toNat : Int) =
    ((s.readReg baseR).toNat + off.toInt) % 2 ^ 24) ∧
  ∀ s : State, wordAddress (s.baseAddress 0#4 0xFFFFF#20) = 0xFFFFFF#24

/-- R62 (b) (the spec's own choice D8, log 12): after a STR, and any number of steps none of which stores to the
same word, every address equal to the store's modulo 2^24 still reads the stored word, so an LDR there, on the
machine while it runs, delivers it. -/
def Obligations.LoadSeesMostRecentStore : Prop :=
  ∀ (sr baseR : RegNum) (off : Field20) (s s1 t : State) (k : Nat) (b : Word),
    exec (.str sr baseR off) s = .next s1 →
    State.noStoreFor (s.readReg baseR + off.signExtend 32) k s1 = true →
    Sys2Proof.core.run k s1 = .next t → sameWord b (s.readReg baseR + off.signExtend 32) →
    t.memRead b = s.readReg sr ∧
    ∀ (dr base2 : RegNum) (off2 : Field20), t.halted = false → t.readReg base2 + off2.signExtend 32 = b →
      ∃ u, exec (.ldr dr base2 off2) t = .next u ∧ t.delivered u dr (s.readReg sr)

/-- R63 (the spec's own choice D9, log 12): a stored word that is an instruction is executed by the very next step
if the incremented PC names the word stored to. -/
def Obligations.StoredInstructionIsExecutedNext : Prop :=
  ∀ (s t : State) (sr baseR : RegNum) (off : Field20) (i : Instr), s.halted = false →
    decode s.fetch = .ok (.str sr baseR off) → sameWord (s.pc + 1#32) (s.readReg baseR + off.signExtend 32) →
    decode (s.readReg sr) = .ok i → step s = .next t → step t = exec i t

/-- R222 (default base and reset pc: log 4, log 5): the words of an image of at most 2^24 words read back at
consecutive addresses from the base, and words outside it are as before; from the boot state of a non-empty image
the first word fetched is its first word. -/
def Obligations.LoadedImageReadsBack : Prop :=
  ∀ (image : List Word) (base : Word) (s : State), image.length ≤ 2 ^ 24 →
    (∀ (k : Nat) (h : k < image.length), (s.loadImage base image).memRead (base + BitVec.ofNat 32 k) = image[k] ∧
      (s.loadImage base image).memReady (base + BitVec.ofNat 32 k) = true) ∧
    (∀ b : Word, (∀ k < image.length, ¬sameWord b (base + BitVec.ofNat 32 k)) →
      (s.loadImage base image).memRead b = s.memRead b) ∧
    ∀ h : 0 < image.length, (State.boot image).fetch = image[0] ∧ (State.boot image).halted = false

/-! ### Start-up and invariants -/

/-- R219, R216, R217 and R215: after reset the machine is running, register 0 reads 0, and no other register, no
flag and no word of memory has been written. The pc is the model's reset_pc, 0 (log 4). -/
def Obligations.ResetStateIsUnwritten : Prop :=
  State.reset.halted = false ∧ State.reset.pc = 0#32 ∧ State.reset.readReg 0#4 = 0#32 ∧
    (∀ r, r ≠ 0#4 → State.reset.regReady r = false) ∧ State.reset.ccWritten = false ∧
    ∀ a, readCell State.reset.mem a = none

/-- The model's own invariant (log 1, log 2, log 3, log 6; canonical memory, one flag set once any is written,
placeholders in what is unwritten) holds at reset. -/
def Obligations.ResetMeetsInv : Prop := State.reset.Inv

/-- Every step keeps the model's own invariant (log 1, log 2, log 3, log 6), from every state that has it. -/
def Obligations.EveryStepKeepsInv : Prop := ∀ s t : State, s.Inv → step s = .next t → t.Inv

/-- The model's own invariant holds of every boot state (log 4, log 5), whatever the image, so with the one above of
every state of every run. -/
def Obligations.EveryRunKeepsInv : Prop :=
  ∀ (image : List Word) (k : Nat) (t : State), Sys2Proof.core.run k (State.boot image) = .next t → t.Inv

/-- The model's own record (log 1, log 2, log 3): what has been written stays written: no step makes a register, the
flags or a word of memory unwritten again. -/
def Obligations.WrittenStaysWritten : Prop :=
  ∀ s t : State, step s = .next t →
    (∀ q, s.regReady q = true → t.regReady q = true) ∧ (s.ccWritten = true → t.ccWritten = true) ∧
    ∀ a, (readCell s.mem a).isSome = true → (readCell t.mem a).isSome = true

/-- R197, R224, R225, by the model's predicate of a clean step (log 19): in a run that reads nothing unwritten, what
the unwritten state holds cannot matter: from any state that differs only in what is unwritten the run goes the same
way and every value it has given is the same. Of a machine that has halted the pc is not compared (R151, log 16). -/
def Obligations.CleanRunsIgnoreUnwrittenState : Prop :=
  ∀ (k : Nat) (s s' t : State), State.cleanFor k s = true → s.completes s' → Sys2Proof.core.run k s = .next t →
    ∃ t', Sys2Proof.core.run k s' = .next t' ∧ t.completes t'

/-- R223 (with the predicate of log 19): a run that is finished, that is, one that has executed a HALT and read
nothing unwritten on the way, is finished in the same number of steps from every state that differs only in what is
unwritten, and holds the same values in everything it has written. -/
def Obligations.FinishedRunsHaveOneResult : Prop :=
  ∀ (k : Nat) (s s' t : State), s.finishes k t → s.completes s' → ∃ t', s'.finishes k t' ∧ t.completes t'

/-! ### Assembly language -/

/-- R102 (derived by the spec; log 29): at a label in reach, LEA delivers the label's address and a taken BR goes to
it. -/
def Obligations.LabelsAreReached : Prop :=
  ∀ (s : State) (label : Word), labelInReach s.pc label = true →
    (∀ dr : RegNum, dr ≠ 0#4 → ∃ i t, assemble s.pc (.lea dr.toNat label) = some i ∧ exec i s = .next t ∧
      t.readReg dr = label) ∧
    ∃ i t, assemble s.pc (.br label) = some i ∧ exec i s = .next t ∧ (s.flags.oneHot → t.pc = label)

/-- R99, R100, R101, R95 (canonical SHFLL is D16, log 18; refusals log 29): every line that assembles gives an
instruction with an assembler spelling, and every such instruction is given by some line at some address. -/
def Obligations.AssemblyReachesExactlySpellable : Prop :=
  (∀ (a : Word) (line : Asm) (i : Instr), assemble a line = some i → i.spellable = true) ∧
  ∀ i : Instr, i.spellable = true → ∃ a line, assemble a line = some i

/-- R100: the bits 23:20 of the words of the eight BR mnemonics. -/
def Obligations.BrMnemonicBits : Prop :=
  ∀ a t : Word,
    (encode ((Asm.brn t).toInstr a)).extractLsb' 20 4 = 0b0100#4 ∧
    (encode ((Asm.brz t).toInstr a)).extractLsb' 20 4 = 0b0010#4 ∧
    (encode ((Asm.brp t).toInstr a)).extractLsb' 20 4 = 0b0001#4 ∧
    (encode ((Asm.brnz t).toInstr a)).extractLsb' 20 4 = 0b0110#4 ∧
    (encode ((Asm.brzp t).toInstr a)).extractLsb' 20 4 = 0b0011#4 ∧
    (encode ((Asm.brnp t).toInstr a)).extractLsb' 20 4 = 0b0101#4 ∧
    (encode ((Asm.brnzp t).toInstr a)).extractLsb' 20 4 = 0b0111#4 ∧
    (encode ((Asm.br t).toInstr a)).extractLsb' 20 4 = 0b0111#4

/-- R101 (derived by the spec from R140): the bits 19:0 of the words of the three SHF mnemonics. -/
def Obligations.ShfMnemonicBits : Prop :=
  ∀ (a : Word) (dr sr1 d : Nat), d ≤ 31 →
    ((encode ((Asm.shfll dr sr1 d).toInstr a)).extractLsb' 0 20).toNat = 0x00000 + d ∧
    ((encode ((Asm.shfrl dr sr1 d).toInstr a)).extractLsb' 0 20).toNat = 0x40000 + d ∧
    ((encode ((Asm.shfra dr sr1 d).toInstr a)).extractLsb' 0 20).toNat = 0xC0000 + d

/-! ### The datapath and the control unit -/

/-- R160: the control word and its signals are the same thing: reading the signals of a word and writing them back,
either way round, loses nothing. -/
def Obligations.ControlWordRoundTrip : Prop :=
  (∀ c : Control, Control.ofWord c.toWord = c) ∧ ∀ w : ControlWord, (Control.ofWord w).toWord = w

/-- R161, R159: the next microstate comes from the main ROM, the sequencer ROM at the opcode, or the CCMatch ROM at
address 0 or 1, as OPTest and ChkCC say, for either order of the mux's select bits; with both there is none. -/
def Obligations.NextMicrostateSource : Prop :=
  ∀ (cfg : MicroConfig) (m : MicroState) (c : Control),
    (c.opTest = false → c.chkCc = false → m.nextUState cfg c = some c.nextState) ∧
    (c.opTest = true → c.chkCc = false →
      m.nextUState cfg c = cfg.seqRom[(m.ir.extractLsb' 28 4).toNat]?) ∧
    (c.opTest = false → c.chkCc = true →
      m.nextUState cfg c = cfg.ccRom[if ((m.ir.getLsbD 22 && m.arch.flags.n) || (m.ir.getLsbD 21 && m.arch.flags.z) ||
        (m.ir.getLsbD 20 && m.arch.flags.p)) = true then 1 else 0]?) ∧
    (c.opTest = true → c.chkCc = true → m.nextUState cfg c = none)

/-- R162: Table 4; the register it selects is the one DrREG drives onto the bus and the one WrREG writes (register 0
ignoring the write). -/
def Obligations.RegisterSelectionMap : Prop :=
  (∀ ir : Word, regSelect false false ir = some (ir.extractLsb' 24 4) ∧
    regSelect false true ir = some (ir.extractLsb' 20 4) ∧ regSelect true false ir = some (ir.extractLsb' 0 4) ∧
    regSelect true true ir = none) ∧
  ∀ (cfg : MicroConfig) (m : MicroState) (c : Control) (q : RegNum) (v : Word),
    regSelect c.regSelHi c.regSelLo m.ir = some q →
    (c.drReg = true → m.bus cfg c = m.arch.readReg q) ∧
    (c.wrReg = true → (m.latchArch c v).readReg q = if q = 0#4 then 0#32 else v)

/-- R163, with R86 and R140 for the shift: Table 5. Which latch carries the value of a shift is not stated; the model
leaves it a parameter (DESIGN CHOICE, log 26), and for either choice the shift is taken from bits 19, 18 and 4:0 of the
other latch. -/
def Obligations.AluFunctionMap : Prop :=
  ∀ a b : Word, ∀ l : Latch,
    aluResult l false false a b = a + b ∧ aluResult l false true a b = ~~~(a &&& b) ∧
    aluResult l true false a b = a + 1#32 ∧
    aluResult .a true true a b = shiftValue (b.getLsbD 19) (b.getLsbD 18) a (b.extractLsb' 0 5) ∧
    aluResult .b true true a b = shiftValue (a.getLsbD 19) (a.getLsbD 18) b (a.extractLsb' 0 5)

/-- R166 (general knowledge, presumed: log 23), U15, U16, U21: whatever the ROMs hold, a microstate that does run
changes the pc, IR, MAR, the latches, the flags, a register or memory only under the signal that loads or writes it,
and a register only if it is the selected one; it never changes what register 0 reads. -/
def Obligations.MicrostateChangesOnlyWhatItLoads : Prop :=
  ∀ (cfg : MicroConfig) (m m' : MicroState), microStep cfg m = .next m' →
    let c := m.control cfg
    (c.ldPc = false → m'.arch.pc = m.arch.pc) ∧ (c.ldIr = false → m'.ir = m.ir) ∧
    (c.ldMar = false → m'.mar = m.mar) ∧ (c.ldA = false → m'.latchA = m.latchA) ∧
    (c.ldB = false → m'.latchB = m.latchB) ∧ (c.ldCc = false → m.arch.sameFlags m'.arch) ∧
    (c.wrMem = false → m.arch.sameMemory m'.arch) ∧
    (∀ a, a ≠ wordCell m.mar → m.arch.sameCell m'.arch a) ∧
    (∀ q, (c.wrReg = false ∨ some q ≠ regSelect c.regSelHi c.regSelLo m.ir ∨ q = 0#4) →
      m'.arch.readReg q = m.arch.readReg q)

/-- U15, U16, U21 (log 24): a microstate is refused exactly when it drives the bus twice, uses the unused register
selection, or asserts both OPTest and ChkCC. -/
def Obligations.MicrostateRefusals : Prop :=
  ∀ (cfg : MicroConfig) (m : MicroState),
    let c := m.control cfg
    (∃ r, microStep cfg m = .refused r) ↔
      (1 < c.drivers ∨ (c.regSelHi = true ∧ c.regSelLo = true ∧ (c.drReg = true ∨ c.wrReg = true)) ∨
        (c.opTest = true ∧ c.chkCc = true))

/-- R170 on the microprogram of R172 (log 28, presumed): from the first FETCH microstate, with any word at the pc
that decodes to an instruction other than HALT, at most seven microstates lead back to the first FETCH microstate,
and the architectural state is then exactly what the instruction-level meaning says. -/
def Obligations.SketchMicroprogramImplementsInstructions : Prop :=
  ∀ (m : MicroState) (i : Instr), m.ustate = sketchFetch → decode m.arch.fetch = .ok i → i ≠ .halt →
    ∃ n m', 4 ≤ n ∧ n ≤ 7 ∧ microRun sketchConfig n m = .next m' ∧ m'.ustate = sketchFetch ∧
      m'.ir = m.arch.fetch ∧ exec i m.arch = .next m'.arch

/-- R170 on the microprogram of R172 (log 28, presumed): a HALT leads to a microstate that no number of clocks
leaves, with registers, flags and memory kept; of the pc nothing is said (R151). -/
def Obligations.SketchMicroprogramHaltNeverFetches : Prop :=
  ∀ m : MicroState, m.ustate = sketchFetch → decode m.arch.fetch = .ok .halt →
    ∀ k, ∃ m', microRun sketchConfig (3 + k) m = .next m' ∧ m'.ustate = sketchHalt ∧ m.arch.sameRegs m'.arch ∧
      m.arch.sameFlags m'.arch ∧ m.arch.sameMemory m'.arch

/-- R170, D23 (log 28, presumed): the sketch is a microprogram of this machine, by the condition the model puts on
one: it follows the cycle and implements every instruction rule. -/
def Obligations.SketchIsAMicroprogramOfTheMachine : Prop := Implements sketchConfig

/-- R170 on the microprogram of R172 (log 28, presumed): whatever a run of whole instructions does, the sketch does
clock by clock, as long as no HALT has executed. -/
def Obligations.SketchCarriesOutRuns : Prop :=
  ∀ (k : Nat) (m : MicroState) (t : State), m.ustate = sketchFetch → Sys2Proof.core.run k m.arch = .next t →
    t.halted = false → ∃ n m', k ≤ n ∧ microRun sketchConfig n m = .next m' ∧ m'.ustate = sketchFetch ∧ m'.arch = t

/-- R170 (log 22): the machine's own microcode, whatever it is, follows the cycle, and so does the sketch. -/
def Obligations.MicrocodeFollowsCycle : Prop := followsCycle microcode = true ∧ followsCycle sketchConfig = true

/-- R170 (derived by the spec; the condition is log 22): with any ROM contents that follow the cycle, the
microstates of HALT never lead back to FETCH, however many clocks run. -/
def Obligations.HaltMicrostatesNeverFetch : Prop :=
  ∀ (cfg : MicroConfig) (m : MicroState), followsCycle cfg = true → m.ustate = seqStart cfg 0b1111#4 →
    ∀ k m', microRun cfg k m = .next m' → m'.ustate ≠ cfg.fetchState

/-- R170 (derived by the spec; the condition is log 22): with any ROM contents that follow the cycle, the
microstates of every defined opcode but HALT are back at FETCH within 128 clocks, unless one of them is refused (log
24). -/
def Obligations.InstructionMicrostatesReturnToFetch : Prop :=
  ∀ (cfg : MicroConfig) (m : MicroState) (op : Opcode), followsCycle cfg = true → op.toNat ≤ 8 →
    m.ustate = seqStart cfg op →
    ∃ n, n ≤ 128 ∧ ((∃ m', microRun cfg n m = .next m' ∧ m'.ustate = cfg.fetchState) ∨
      ∃ r, microRun cfg n m = .refused r)
end

