-- ==== Sys2Proof/Laws/State.lean ====
section
/-! SUPPORT. What each update of the state does to each field, so that no later proof unfolds an update. -/

namespace Sys2Proof.Machine

variable (s : State) (r : RegNum) (v w : Word) (f : Flags)

/-! ### writeReg -/

@[simp] theorem State.writeReg_zero : s.writeReg 0#4 v = s := rfl
@[simp] theorem State.writeReg_pc : (s.writeReg r v).pc = s.pc := by unfold writeReg; split <;> rfl
@[simp] theorem State.writeReg_cc : (s.writeReg r v).cc = s.cc := by unfold writeReg; split <;> rfl
@[simp] theorem State.writeReg_ccWritten : (s.writeReg r v).ccWritten = s.ccWritten := by
  unfold writeReg; split <;> rfl
@[simp] theorem State.writeReg_mem : (s.writeReg r v).mem = s.mem := by unfold writeReg; split <;> rfl
@[simp] theorem State.writeReg_halted : (s.writeReg r v).halted = s.halted := by unfold writeReg; split <;> rfl
@[simp] theorem State.writeReg_draws : (s.writeReg r v).draws = s.draws := by unfold writeReg; split <;> rfl

/-! ### writeFlags and setCC -/

@[simp] theorem State.writeFlags_regs : (s.writeFlags f).regs = s.regs := rfl
@[simp] theorem State.writeFlags_regWritten : (s.writeFlags f).regWritten = s.regWritten := rfl
@[simp] theorem State.writeFlags_pc : (s.writeFlags f).pc = s.pc := rfl
@[simp] theorem State.writeFlags_cc : (s.writeFlags f).cc = f := rfl
@[simp] theorem State.writeFlags_ccWritten : (s.writeFlags f).ccWritten = true := rfl
@[simp] theorem State.writeFlags_mem : (s.writeFlags f).mem = s.mem := rfl
@[simp] theorem State.writeFlags_halted : (s.writeFlags f).halted = s.halted := rfl
@[simp] theorem State.writeFlags_draws : (s.writeFlags f).draws = s.draws := rfl
@[simp] theorem State.setCC_regs : (s.setCC v).regs = s.regs := rfl
@[simp] theorem State.setCC_regWritten : (s.setCC v).regWritten = s.regWritten := rfl
@[simp] theorem State.setCC_pc : (s.setCC v).pc = s.pc := rfl
@[simp] theorem State.setCC_cc : (s.setCC v).cc = Flags.ofValue v := rfl
@[simp] theorem State.setCC_ccWritten : (s.setCC v).ccWritten = true := rfl
@[simp] theorem State.setCC_mem : (s.setCC v).mem = s.mem := rfl
@[simp] theorem State.setCC_halted : (s.setCC v).halted = s.halted := rfl
@[simp] theorem State.setCC_draws : (s.setCC v).draws = s.draws := rfl

/-! ### memWrite -/

@[simp] theorem State.memWrite_regs : (s.memWrite v w).regs = s.regs := rfl
@[simp] theorem State.memWrite_regWritten : (s.memWrite v w).regWritten = s.regWritten := rfl
@[simp] theorem State.memWrite_pc : (s.memWrite v w).pc = s.pc := rfl
@[simp] theorem State.memWrite_cc : (s.memWrite v w).cc = s.cc := rfl
@[simp] theorem State.memWrite_ccWritten : (s.memWrite v w).ccWritten = s.ccWritten := rfl
@[simp] theorem State.memWrite_mem : (s.memWrite v w).mem = writeWord s.mem v w := rfl
@[simp] theorem State.memWrite_halted : (s.memWrite v w).halted = s.halted := rfl
@[simp] theorem State.memWrite_draws : (s.memWrite v w).draws = s.draws := rfl

/-! ### setPc and advance -/

@[simp] theorem State.setPc_regs : (s.setPc v).regs = s.regs := rfl
@[simp] theorem State.setPc_regWritten : (s.setPc v).regWritten = s.regWritten := rfl
@[simp] theorem State.setPc_pc : (s.setPc v).pc = v := rfl
@[simp] theorem State.setPc_cc : (s.setPc v).cc = s.cc := rfl
@[simp] theorem State.setPc_ccWritten : (s.setPc v).ccWritten = s.ccWritten := rfl
@[simp] theorem State.setPc_mem : (s.setPc v).mem = s.mem := rfl
@[simp] theorem State.setPc_halted : (s.setPc v).halted = s.halted := rfl
@[simp] theorem State.setPc_draws : (s.setPc v).draws = s.draws := rfl
@[simp] theorem State.advance_regs : s.advance.regs = s.regs := rfl
@[simp] theorem State.advance_regWritten : s.advance.regWritten = s.regWritten := rfl
@[simp] theorem State.advance_pc : s.advance.pc = s.pc + 1#32 := rfl
@[simp] theorem State.advance_cc : s.advance.cc = s.cc := rfl
@[simp] theorem State.advance_ccWritten : s.advance.ccWritten = s.ccWritten := rfl
@[simp] theorem State.advance_mem : s.advance.mem = s.mem := rfl
@[simp] theorem State.advance_halted : s.advance.halted = s.halted := rfl
@[simp] theorem State.advance_draws : s.advance.draws = s.draws := rfl

/-! ### halt -/

@[simp] theorem State.halt_regs : s.halt.regs = s.regs := rfl
@[simp] theorem State.halt_regWritten : s.halt.regWritten = s.regWritten := rfl
@[simp] theorem State.halt_cc : s.halt.cc = s.cc := rfl
@[simp] theorem State.halt_ccWritten : s.halt.ccWritten = s.ccWritten := rfl
@[simp] theorem State.halt_mem : s.halt.mem = s.mem := rfl
@[simp] theorem State.halt_halted : s.halt.halted = true := rfl
@[simp] theorem State.halt_draws : s.halt.draws = s.draws + 1 := rfl

/-! ### deliver -/

@[simp] theorem State.deliver_regs : (s.deliver r v).regs = (s.writeReg r v).regs := rfl
@[simp] theorem State.deliver_regWritten : (s.deliver r v).regWritten = (s.writeReg r v).regWritten := rfl
@[simp] theorem State.deliver_pc : (s.deliver r v).pc = s.pc + 1#32 := by simp [deliver]
@[simp] theorem State.deliver_cc : (s.deliver r v).cc = Flags.ofValue v := rfl
@[simp] theorem State.deliver_ccWritten : (s.deliver r v).ccWritten = true := rfl
@[simp] theorem State.deliver_mem : (s.deliver r v).mem = s.mem := by simp [deliver]
@[simp] theorem State.deliver_halted : (s.deliver r v).halted = s.halted := by simp [deliver]
@[simp] theorem State.deliver_draws : (s.deliver r v).draws = s.draws := by simp [deliver]

end Sys2Proof.Machine
end

