-- ==== Sys2Proof/Laws/Memory.lean ====
section
/-! SUPPORT. The memory operations: read after write, and that every one keeps the canonical form. -/

namespace Sys2Proof.Machine

/-! ### One word -/

/-- Writing a cell changes that cell and no other. -/
theorem readCell_writeCell (m : Memory) (a b : Nat) (v : Word) :
    readCell (writeCell m a v) b = if b = a then some v else readCell m b := by
  induction m with
  | nil => simp [writeCell, readCell]
  | cons c rest ih =>
    obtain ⟨d, w⟩ := c
    simp only [writeCell]
    by_cases had : a < d
    · simp [had, readCell]
    · by_cases hae : a = d
      · subst hae
        by_cases hba : b = a <;> simp [readCell, hba]
      · by_cases hbd : b = d
        · subst hbd
          simp [had, hae, readCell, Ne.symm hae]
        · simp [had, hae, readCell, hbd, ih]

/-- Every entry of a written memory is an entry it had or the one written. -/
theorem mem_writeCell {m : Memory} {a : Nat} {v : Word} {c : Nat × Word} (h : c ∈ writeCell m a v) :
    c ∈ m ∨ c = (a, v) := by
  induction m with
  | nil => simpa [writeCell] using h
  | cons d rest ih =>
    obtain ⟨b, w⟩ := d
    simp only [writeCell] at h
    split at h
    · simp only [List.mem_cons] at h ⊢; tauto
    · split at h
      · simp only [List.mem_cons] at h ⊢; tauto
      · rcases List.mem_cons.mp h with h | h
        · exact .inl (h ▸ List.mem_cons_self)
        · exact (ih h).imp (List.mem_cons_of_mem _) id

/-- Writing a cell inside the memory keeps the canonical form. -/
theorem wf_writeCell {m : Memory} {a : Nat} {v : Word} (hm : m.wf) (ha : a < memoryWords) :
    (writeCell m a v).wf := by
  refine ⟨?_, fun c hc => (mem_writeCell hc).elim (hm.2 c) (fun h => h ▸ ha)⟩
  obtain ⟨hs, -⟩ := hm
  induction m with
  | nil => simp [writeCell]
  | cons d rest ih =>
    obtain ⟨b, w⟩ := d
    obtain ⟨hb, hr⟩ := List.pairwise_cons.mp hs
    simp only [writeCell]
    split
    · next hab =>
      refine List.pairwise_cons.mpr ⟨fun c hc => ?_, hs⟩
      rcases List.mem_cons.mp hc with rfl | hc
      · exact hab
      · exact hab.trans (hb c hc)
    · next hab =>
      split
      · next he => exact List.pairwise_cons.mpr ⟨fun c hc => he ▸ hb c hc, hr⟩
      · next hne =>
        refine List.pairwise_cons.mpr ⟨fun c hc => ?_, ih hr⟩
        rcases mem_writeCell hc with hc | rfl
        · exact hb c hc
        · show b < a
          omega

/-- A cell below every entry has not been written. -/
theorem readCell_eq_none_of_lt {m : Memory} {a : Nat} (h : ∀ c ∈ m, a < c.1) : readCell m a = none := by
  induction m with
  | nil => rfl
  | cons d rest ih =>
    obtain ⟨b, w⟩ := d
    have hb : a < b := h _ List.mem_cons_self
    simp [readCell, Nat.ne_of_lt hb, ih fun c hc => h c (List.mem_cons_of_mem _ hc)]

/-- Two memories in canonical form that read alike are equal data. -/
theorem memory_ext {m n : Memory} (hm : m.wf) (hn : n.wf) (h : ∀ a, readCell m a = readCell n a) : m = n := by
  obtain ⟨hm, -⟩ := hm
  obtain ⟨hn, -⟩ := hn
  induction m generalizing n with
  | nil =>
    cases n with
    | nil => rfl
    | cons d rest => simpa [readCell] using h d.1
  | cons c mrest ih =>
    cases n with
    | nil => simpa [readCell] using h c.1
    | cons d nrest =>
      obtain ⟨a, v⟩ := c
      obtain ⟨b, w⟩ := d
      obtain ⟨ha, hmr⟩ := List.pairwise_cons.mp hm
      obtain ⟨hb, hnr⟩ := List.pairwise_cons.mp hn
      have hab : a = b := by
        rcases Nat.lt_trichotomy a b with hlt | heq | hgt
        · have := h a
          rw [readCell_eq_none_of_lt (m := (b, w) :: nrest) (a := a) (by
            intro c hc
            rcases List.mem_cons.mp hc with rfl | hc
            · exact hlt
            · exact hlt.trans (hb c hc))] at this
          simp [readCell] at this
        · exact heq
        · have := h b
          rw [readCell_eq_none_of_lt (m := (a, v) :: mrest) (a := b) (by
            intro c hc
            rcases List.mem_cons.mp hc with rfl | hc
            · exact hgt
            · exact hgt.trans (ha c hc))] at this
          simp [readCell] at this
      subst hab
      have hvw : v = w := by simpa [readCell] using h a
      subst hvw
      congr 1
      refine ih (fun x => ?_) hmr hnr
      by_cases hx : x = a
      · subst hx
        rw [readCell_eq_none_of_lt ha, readCell_eq_none_of_lt hb]
      · simpa [readCell, hx] using h x

/-! ### Addresses -/

/-- A word address lies within the memory (R52). -/
theorem wordCell_lt (addr : Word) : wordCell addr < memoryWords := (wordAddress addr).isLt

/-- Bits 23:0 of an address are the address modulo 2^24 (R51). -/
theorem wordCell_eq (addr : Word) : wordCell addr = addr.toNat % 2 ^ 24 := by
  simp [wordCell, wordAddress, BitVec.extractLsb'_toNat]

/-- Writing at an address writes the word it names and leaves the others. -/
theorem readCell_writeWord (m : Memory) (addr v : Word) (a : Nat) :
    readCell (writeWord m addr v) a = if a = wordCell addr then some v else readCell m a := readCell_writeCell ..

/-- Writing at an address keeps the canonical form. -/
theorem wf_writeWord {m : Memory} (addr v : Word) (hm : m.wf) : (writeWord m addr v).wf :=
  wf_writeCell hm (wordCell_lt addr)

/-! ### The state's memory -/

/-- Placing an image keeps the canonical form. -/
theorem wf_loadImage {s : State} (base : Word) (image : List Word) (h : s.mem.wf) :
    (s.loadImage base image).mem.wf := by
  induction image generalizing s base with
  | nil => exact h
  | cons w rest ih => exact ih (s := s.memWrite base w) (base + 1#32) (wf_writeWord base w h)

/-- The memory after reset is in the canonical form. -/
theorem wf_reset : State.reset.mem.wf := ⟨.nil, fun _ h => absurd h List.not_mem_nil⟩

end Sys2Proof.Machine
end

