-- ==== Sys2Proof/Laws/Ops.lean ====
section
/-! SUPPORT. What each shared operation does, seen through the reads: registers, flags, memory words. -/

namespace Sys2Proof.Machine

variable (s : State)

/-! ### Registers (R27) -/

@[simp] theorem State.readReg_zero : s.readReg 0#4 = 0#32 := rfl
@[simp] theorem State.regReady_zero : s.regReady 0#4 = true := rfl

/-- A register write is seen by a read of that register, unless it is register 0, and by no other read. -/
theorem State.readReg_writeReg (r q : RegNum) (v : Word) :
    (s.writeReg r v).readReg q = if q = r ∧ r ≠ 0#4 then v else s.readReg q := by
  by_cases hr : r = 0#4
  · simp [hr]
  · by_cases hq : q = r
    · subst hq; simp [readReg, writeReg, hr]
    · have hne : r.toNat ≠ q.toNat := fun h => hq (BitVec.eq_of_toNat_eq h.symm)
      simp [readReg, writeReg, hr, hq, hne]

/-- After a register write the register is written, and no other register's standing changes. -/
theorem State.regReady_writeReg (r q : RegNum) (v : Word) :
    (s.writeReg r v).regReady q = (decide (q = r) || s.regReady q) := by
  by_cases hr : r = 0#4
  · subst hr
    by_cases hq : q = 0#4 <;> simp [hq]
  · by_cases hq : q = r
    · subst hq; simp [regReady, writeReg, hr]
    · have hne : r.toNat ≠ q.toNat := fun h => hq (BitVec.eq_of_toNat_eq h.symm)
      simp [regReady, writeReg, hr, hq, hne]

/-! ### What the other updates leave to a read -/

@[simp] theorem State.readReg_setCC (v : Word) (q : RegNum) : (s.setCC v).readReg q = s.readReg q := rfl
@[simp] theorem State.readReg_setPc (v : Word) (q : RegNum) : (s.setPc v).readReg q = s.readReg q := rfl
@[simp] theorem State.readReg_advance (q : RegNum) : s.advance.readReg q = s.readReg q := rfl
@[simp] theorem State.readReg_memWrite (a v : Word) (q : RegNum) : (s.memWrite a v).readReg q = s.readReg q := rfl
@[simp] theorem State.readReg_halt (q : RegNum) : s.halt.readReg q = s.readReg q := rfl
@[simp] theorem State.readReg_deliver (r q : RegNum) (v : Word) :
    (s.deliver r v).readReg q = (s.writeReg r v).readReg q := rfl
@[simp] theorem State.regReady_setCC (v : Word) (q : RegNum) : (s.setCC v).regReady q = s.regReady q := rfl
@[simp] theorem State.regReady_setPc (v : Word) (q : RegNum) : (s.setPc v).regReady q = s.regReady q := rfl
@[simp] theorem State.regReady_advance (q : RegNum) : s.advance.regReady q = s.regReady q := rfl
@[simp] theorem State.regReady_memWrite (a v : Word) (q : RegNum) : (s.memWrite a v).regReady q = s.regReady q := rfl
@[simp] theorem State.regReady_halt (q : RegNum) : s.halt.regReady q = s.regReady q := rfl
@[simp] theorem State.regReady_deliver (r q : RegNum) (v : Word) :
    (s.deliver r v).regReady q = (s.writeReg r v).regReady q := rfl
@[simp] theorem State.flags_writeReg (r : RegNum) (v : Word) : (s.writeReg r v).flags = s.flags := by simp [flags]
@[simp] theorem State.flags_setPc (v : Word) : (s.setPc v).flags = s.flags := rfl
@[simp] theorem State.flags_advance : s.advance.flags = s.flags := rfl
@[simp] theorem State.flags_memWrite (a v : Word) : (s.memWrite a v).flags = s.flags := rfl
@[simp] theorem State.flags_halt : s.halt.flags = s.flags := rfl
@[simp] theorem State.flags_setCC (v : Word) : (s.setCC v).flags = Flags.ofValue v := rfl
@[simp] theorem State.flags_deliver (r : RegNum) (v : Word) : (s.deliver r v).flags = Flags.ofValue v := rfl

/-- A read at a word address depends on the memory alone. -/
theorem State.wordAt_congr {s t : State} (h : t.mem = s.mem) (a : Nat) : t.wordAt a = s.wordAt a := by
  simp [wordAt, h]

/-- A read of a word depends on the memory alone. -/
theorem State.memRead_congr {s t : State} (h : t.mem = s.mem) (a : Word) : t.memRead a = s.memRead a := by
  exact wordAt_congr h _

@[simp] theorem State.memRead_writeReg (r : RegNum) (v a : Word) : (s.writeReg r v).memRead a = s.memRead a :=
  memRead_congr (writeReg_mem s r v) a
@[simp] theorem State.memRead_setCC (v a : Word) : (s.setCC v).memRead a = s.memRead a := rfl
@[simp] theorem State.memRead_setPc (v a : Word) : (s.setPc v).memRead a = s.memRead a := rfl
@[simp] theorem State.memRead_advance (a : Word) : s.advance.memRead a = s.memRead a := rfl
@[simp] theorem State.memRead_halt (a : Word) : s.halt.memRead a = s.memRead a := rfl
@[simp] theorem State.memRead_deliver (r : RegNum) (v a : Word) : (s.deliver r v).memRead a = s.memRead a :=
  memRead_congr (deliver_mem s r v) a
@[simp] theorem State.wordAt_writeReg (r : RegNum) (v : Word) (a : Nat) :
    (s.writeReg r v).wordAt a = s.wordAt a := wordAt_congr (writeReg_mem s r v) a
@[simp] theorem State.wordAt_setCC (v : Word) (a : Nat) : (s.setCC v).wordAt a = s.wordAt a := rfl
@[simp] theorem State.wordAt_setPc (v : Word) (a : Nat) : (s.setPc v).wordAt a = s.wordAt a := rfl
@[simp] theorem State.wordAt_advance (a : Nat) : s.advance.wordAt a = s.wordAt a := rfl
@[simp] theorem State.wordAt_halt (a : Nat) : s.halt.wordAt a = s.wordAt a := rfl
@[simp] theorem State.wordAt_deliver (r : RegNum) (v : Word) (a : Nat) :
    (s.deliver r v).wordAt a = s.wordAt a := wordAt_congr (deliver_mem s r v) a

/-! ### The condition codes (R38) -/

/-- Exactly one flag describes a value, by its sign. -/
theorem Flags.ofValue_cases (v : Word) :
    (v.msb = true ∧ Flags.ofValue v = { n := true, z := false, p := false }) ∨
    (v = 0#32 ∧ Flags.ofValue v = { n := false, z := true, p := false }) ∨
    (v.msb = false ∧ v ≠ 0#32 ∧ Flags.ofValue v = { n := false, z := false, p := true }) := by
  by_cases h0 : v = 0#32
  · exact .inr (.inl ⟨h0, by subst h0; rfl⟩)
  · cases hm : v.msb
    · exact .inr (.inr ⟨rfl, h0, by simp [Flags.ofValue, hm, h0]⟩)
    · exact .inl ⟨rfl, by simp [Flags.ofValue, hm, h0]⟩

/-! ### Memory words (R54) -/

/-- The word at a word address after a store. -/
theorem State.wordAt_memWrite (addr v : Word) (a : Nat) :
    (s.memWrite addr v).wordAt a = if a = wordCell addr then v else s.wordAt a := by
  simp only [wordAt, memWrite_mem, readCell_writeWord]
  split <;> rfl

/-- A word read from the address a word was written to is that word, with the upper eight address bits
ignored; every other word reads as before. -/
theorem State.memRead_memWrite (addr v b : Word) :
    (s.memWrite addr v).memRead b = if wordCell b = wordCell addr then v else s.memRead b := wordAt_memWrite ..

end Sys2Proof.Machine
end

