-- ==== Sys2Proof/Laws/Micro.lean ====
section
/-! SUPPORT. What one microstate does to each register of the datapath, and the control words of the sketch. -/

namespace Sys2Proof.Machine

variable (m : MicroState) (c : Control) (v : Word)

/-! ### The end of a microstate, field by field -/

theorem MicroState.latchArch_pc : (m.latchArch c v).pc = if c.ldPc then v else m.arch.pc := by
  unfold latchArch
  cases c.wrReg <;> cases c.ldCc <;> cases c.wrMem <;> cases c.ldPc <;> simp [apply_ite State.pc]

theorem MicroState.latchArch_cc : (m.latchArch c v).cc = if c.ldCc then Flags.ofValue v else m.arch.cc := by
  unfold latchArch
  cases c.wrReg <;> cases c.ldCc <;> cases c.wrMem <;> cases c.ldPc <;> simp [apply_ite State.cc]

theorem MicroState.latchArch_ccWritten : (m.latchArch c v).ccWritten = (c.ldCc || m.arch.ccWritten) := by
  unfold latchArch
  cases c.wrReg <;> cases c.ldCc <;> cases c.wrMem <;> cases c.ldPc <;> simp [apply_ite State.ccWritten]

theorem MicroState.latchArch_mem :
    (m.latchArch c v).mem = if c.wrMem then writeWord m.arch.mem m.mar v else m.arch.mem := by
  unfold latchArch
  cases c.wrReg <;> cases c.ldCc <;> cases c.wrMem <;> cases c.ldPc <;> simp [apply_ite State.mem]

theorem MicroState.latchArch_readReg (q : RegNum) :
    (m.latchArch c v).readReg q = if c.wrReg ∧ q = m.selected c ∧ m.selected c ≠ 0#4 then v else m.arch.readReg q := by
  have h : (m.latchArch c v).readReg q = (if c.wrReg then m.arch.writeReg (m.selected c) v else m.arch).readReg q := by
    unfold latchArch
    cases c.wrReg <;> cases c.ldCc <;> cases c.wrMem <;> cases c.ldPc <;>
      simp only [Bool.false_eq_true, if_true, if_false] <;> split <;> rfl
  rw [h]
  cases c.wrReg <;> simp [State.readReg_writeReg]

/-- What a microstate that runs does. -/
theorem microStep_next_inv {cfg : MicroConfig} {m m' : MicroState} (h : microStep cfg m = .next m') :
    ∃ u, m.nextUState cfg (m.control cfg) = some u ∧ (m.control cfg).drivers ≤ 1 ∧
      ((regSelect (m.control cfg).regSelHi (m.control cfg).regSelLo m.ir).isNone = true →
        (m.control cfg).drReg = false ∧ (m.control cfg).wrReg = false) ∧
      m' = { arch := m.latchArch (m.control cfg) (m.bus cfg (m.control cfg))
             ir := if (m.control cfg).ldIr then m.bus cfg (m.control cfg) else m.ir
             mar := if (m.control cfg).ldMar then m.bus cfg (m.control cfg) else m.mar
             latchA := if (m.control cfg).ldA then m.bus cfg (m.control cfg) else m.latchA
             latchB := if (m.control cfg).ldB then m.bus cfg (m.control cfg) else m.latchB
             ustate := u } := by
  unfold microStep at h
  generalize m.control cfg = c at h ⊢
  dsimp only at h
  split at h
  · cases h
  · next hd =>
    split at h
    · cases h
    · next hs =>
      cases hu : m.nextUState cfg c with
      | none => simp [hu] at h
      | some u =>
        simp only [hu] at h
        cases h
        refine ⟨u, rfl, by omega, fun hn => ?_, rfl⟩
        simpa [hn] using hs

/-! ### The sketch (R172) -/

/-- The control word of a microstate of the sketch, as listed. -/
theorem sketch_control (k : Fin 33) :
    Control.ofWord (sketchConfig.mainRom[k.val]'(by omega)) = sketchControls[k.val]'k.isLt := by
  revert k
  decide

/-- The control word of a microstate of the sketch whose number is known. -/
theorem MicroState.control_sketch {m : MicroState} {k : Nat} (h : m.ustate.toNat = k) (hk : k < 33) :
    m.control sketchConfig = sketchControls[k]'hk := by
  subst h
  exact sketch_control ⟨m.ustate.toNat, hk⟩

end Sys2Proof.Machine
end

