-- ==== Sys2Proof/Laws/Cycle.lean ====
section
/-! SUPPORT. What follows a microstate, by how it is linked, and runs of the micro machine. -/

namespace Sys2Proof.Machine

variable {cfg : MicroConfig} {m m' : MicroState}

/-- A microstate that runs is followed by the one the mux gives. -/
theorem microStep_ustate (h : microStep cfg m = .next m') :
    m.nextUState cfg (m.control cfg) = some m'.ustate := by
  obtain ⟨u, hu, -, -, rfl⟩ := microStep_next_inv h
  exact hu

/-- After a linked microstate comes the one its NextState field names, for either order of the mux (R161). -/
theorem microStep_linked (h : microStep cfg m = .next m') (hl : linked cfg m.ustate = true) :
    m'.ustate = (controlOf cfg m.ustate).nextState := by
  have hn := microStep_ustate h
  simp only [linked, Bool.and_eq_true, Bool.not_eq_true'] at hl
  simp only [MicroState.nextUState, MicroState.control, hl.1, hl.2] at hn
  cases ho : cfg.muxOrder <;> simp_all [muxSelect, muxInput]

/-- After a microstate that asserts OPTest alone comes the first one of the opcode in IR (R161). -/
theorem microStep_dispatches (h : microStep cfg m = .next m') (hd : dispatches cfg m.ustate = true) :
    m'.ustate = seqStart cfg (fieldOp m.ir) := by
  have hn := microStep_ustate h
  simp only [dispatches, Bool.and_eq_true, Bool.not_eq_true'] at hd
  simp only [MicroState.nextUState, MicroState.control, hd.1, hd.2] at hn
  cases ho : cfg.muxOrder <;> simp_all [muxSelect, muxInput]

/-- After a microstate that asserts ChkCC alone comes the one the CCMatch ROM gives (R161). -/
theorem microStep_testsFlags (h : microStep cfg m = .next m') (ht : testsFlags cfg m.ustate = true) :
    m'.ustate = ccStart cfg m.ccMatchBit := by
  have hn := microStep_ustate h
  simp only [testsFlags, Bool.and_eq_true, Bool.not_eq_true'] at ht
  simp only [MicroState.nextUState, MicroState.control, ht.1, ht.2] at hn
  cases ho : cfg.muxOrder <;> simp_all [muxSelect, muxInput]

/-- A microstate runs or is refused. -/
theorem microStep_outcome (cfg : MicroConfig) (m : MicroState) :
    (∃ m', microStep cfg m = .next m') ∨ ∃ r, microStep cfg m = .refused r := by
  cases h : microStep cfg m with
  | next m' => exact .inl ⟨m', rfl⟩
  | fault r => exact r.elim
  | refused r => exact .inr ⟨r, rfl⟩

/-- No clock is a run of none. -/
@[simp] theorem microRun_zero (cfg : MicroConfig) (m : MicroState) : microRun cfg 0 m = .next m := rfl

/-- A run of one clock more begins with that clock. -/
theorem microRun_succ (k : Nat) (h : microStep cfg m = .next m') : microRun cfg (k + 1) m = microRun cfg k m' := by
  simp [microRun, h]

/-- A run ends where its second part, begun where the first part ends, does. -/
theorem microRun_add (j k : Nat) (h : microRun cfg j m = .next m') : microRun cfg (j + k) m = microRun cfg k m' := by
  induction j generalizing m with
  | zero => cases h; simp
  | succ j ih =>
    rcases microStep_outcome cfg m with ⟨u, hu⟩ | ⟨r, hr⟩
    · rw [microRun_succ j hu] at h
      rw [show j + 1 + k = j + k + 1 by omega, microRun_succ _ hu, ih h]
    · simp [microRun, hr] at h

end Sys2Proof.Machine
end

