-- ==== Sys2Proof/Laws/Encoding.lean ====
section
/-! SUPPORT. The fields of the words each form of R76 builds. -/

namespace Sys2Proof

/-- A field of a word is known once each of its bits is. -/
theorem field_eq {n lo : Nat} {w : Word} {f : BitVec n} (h : ∀ i < n, w.getLsbD (lo + i) = f.getLsbD i) :
    w.extractLsb' lo n = f := by
  ext i hi
  simpa [BitVec.getLsbD_eq_getElem hi] using h i hi

/-- The opcode stands in bits 31:28 of every form. -/
theorem fieldOp_formR (op : Opcode) (rx ry rz : RegNum) : fieldOp (formR op rx ry rz) = op := by
  refine field_eq fun i hi => ?_
  simp only [formR, BitVec.getLsbD_append]
  interval_cases i <;> simp

theorem fieldOp_formI (op : Opcode) (rx ry : RegNum) (imm : Field20) : fieldOp (formI op rx ry imm) = op := by
  refine field_eq fun i hi => ?_
  simp only [formI, BitVec.getLsbD_append]
  interval_cases i <;> simp

theorem fieldOp_formB (op : Opcode) (n z p : Bool) (off : Field20) : fieldOp (formB op n z p off) = op := by
  refine field_eq fun i hi => ?_
  simp only [formB, BitVec.getLsbD_append]
  interval_cases i <;> simp

theorem fieldOp_formJ (op : Opcode) (ra tgt : RegNum) : fieldOp (formJ op ra tgt) = op := by
  refine field_eq fun i hi => ?_
  simp only [formJ, BitVec.getLsbD_append]
  interval_cases i <;> simp

theorem fieldOp_formL (op : Opcode) (dr : RegNum) (off : Field20) : fieldOp (formL op dr off) = op := by
  refine field_eq fun i hi => ?_
  simp only [formL, BitVec.getLsbD_append]
  interval_cases i <;> simp

theorem fieldOp_formH (op : Opcode) : fieldOp (formH op) = op := by
  refine field_eq fun i hi => ?_
  simp only [formH, BitVec.getLsbD_append]
  interval_cases i <;> simp

end Sys2Proof
end

