-- ==== Sys2Proof/Laws/Frames.lean ====
section
/-! SUPPORT. The shared end of the instructions marked `+`, and the flags of a value, in the terms claims use. -/

namespace Sys2Proof.Machine

/-- A state with the same memory data has every word as before. -/
theorem State.sameMemory_of_eq {s t : State} (h : t.mem = s.mem) : s.sameMemory t := fun a =>
  ⟨wordAt_congr h a, by rw [h]⟩

/-- The flags of a value say whether its signed reading is negative, zero or positive (R38). -/
theorem Flags.ofValue_sign (v : Word) :
    ((Flags.ofValue v).n = true ↔ v.toInt < 0) ∧ ((Flags.ofValue v).z = true ↔ v.toInt = 0) ∧
      ((Flags.ofValue v).p = true ↔ 0 < v.toInt) := by
  have hz : v = 0#32 ↔ v.toInt = 0 := by
    constructor
    · rintro rfl; rfl
    · intro h; exact BitVec.eq_of_toInt_eq (by simpa using h)
  have hm : v.msb = true ↔ v.toInt < 0 := by rw [BitVec.msb_eq_toInt]; simp
  refine ⟨hm, by simp [Flags.ofValue, hz], ?_⟩
  cases h : v.msb
  · have : ¬ v.toInt < 0 := by rw [← hm]; simp [h]
    simp [Flags.ofValue, h, hz]
    omega
  · have := hm.mp h
    simp [Flags.ofValue, h]
    omega

/-- Everything `State.deliver` does. -/
theorem State.deliver_delivered (s : State) (dr : RegNum) (r : Word) : s.delivered (s.deliver dr r) dr r where
  result := by
    simp only [readReg_deliver, readReg_writeReg]
    by_cases h : dr = 0#4 <;> simp [h]
  resultReady := by simp [regReady_writeReg]
  otherRegs := fun q hq => by simp [readReg_writeReg, regReady_writeReg, hq]
  flags := ⟨rfl, by simpa using Flags.ofValue_sign r⟩
  pc := by simp
  memory := sameMemory_of_eq (by simp)
  control := by simp [sameControl]

end Sys2Proof.Machine
end

