-- ==== Sys2Proof/Laws/PerInstr.lean ====
section
/-! SUPPORT. What holds of every instruction as syntax, one lemma per constructor. -/

namespace Sys2Proof.Laws

/-- Bits 31:28 of an instruction's word hold its opcode (R76, R91). -/
def OpcodeField.Statement (i : Instr) : Prop := fieldOp (encode i) = opcodeOf i

theorem OpcodeField.add (dr sr1 sr2 : RegNum) : OpcodeField.Statement (.add dr sr1 sr2) := fieldOp_formR ..
theorem OpcodeField.addi (dr sr1 : RegNum) (imm : Field20) : OpcodeField.Statement (.addi dr sr1 imm) :=
  fieldOp_formI ..
theorem OpcodeField.nand (dr sr1 sr2 : RegNum) : OpcodeField.Statement (.nand dr sr1 sr2) := fieldOp_formR ..
theorem OpcodeField.br (n z p : Bool) (off : Field20) : OpcodeField.Statement (.br n z p off) := fieldOp_formB ..
theorem OpcodeField.jalr (ra tgt : RegNum) : OpcodeField.Statement (.jalr ra tgt) := fieldOp_formJ ..
theorem OpcodeField.ldr (dr baseR : RegNum) (off : Field20) : OpcodeField.Statement (.ldr dr baseR off) :=
  fieldOp_formI ..
theorem OpcodeField.lea (dr : RegNum) (off : Field20) : OpcodeField.Statement (.lea dr off) := fieldOp_formL ..
theorem OpcodeField.str (sr baseR : RegNum) (off : Field20) : OpcodeField.Statement (.str sr baseR off) :=
  fieldOp_formI ..
theorem OpcodeField.shf (dr sr1 : RegNum) (arith right : Bool) (dist : Dist5) :
    OpcodeField.Statement (.shf dr sr1 arith right dist) := fieldOp_formI ..
theorem OpcodeField.halt : OpcodeField.Statement .halt := fieldOp_formH ..

end Sys2Proof.Laws
end

