-- ==== Sys2Proof/Laws/Step.lean ====
section
/-! SUPPORT. What a step and a run can do, said once. -/

namespace Sys2Proof.Machine

/-- Every instruction has a next state in every state. -/
theorem exec_completes (i : Instr) (s : State) : ∃ t, exec i s = .next t := by cases i <;> exact ⟨_, rfl⟩

/-- A step that answers a next state ran the instruction at the pc of a running machine. -/
theorem step_next_inv {s t : State} (h : step s = .next t) :
    s.halted = false ∧ ∃ i, decode s.fetch = .ok i ∧ exec i s = .next t := by
  unfold step at h
  split at h
  · cases h
  · next hh =>
    refine ⟨by simpa using hh, ?_⟩
    split at h
    · next i hi => exact ⟨i, hi, h⟩
    · cases h
    · cases h

/-- The step of a running machine whose word decodes. -/
theorem step_of_decode {s : State} {i : Instr} (hh : s.halted = false) (hi : decode s.fetch = .ok i) :
    step s = exec i s := by simp [step, hh, hi]

/-- No step is a run of none. -/
@[simp] theorem run_zero (s : State) : Sys2Proof.core.run 0 s = .next s := rfl

/-- A run of one step more begins with that step. -/
theorem run_succ (k : Nat) {s t : State} (h : step s = .next t) :
    Sys2Proof.core.run (k + 1) s = Sys2Proof.core.run k t := by
  have h' : Sys2Proof.core.step s = Host.Outcome.next t := h
  simp only [Host.Core.run, h']

/-- A run of one step more that answers a next state takes a step and goes on from there. -/
theorem run_succ_inv {k : Nat} {s u : State} (h : Sys2Proof.core.run (k + 1) s = .next u) :
    ∃ t, step s = .next t ∧ Sys2Proof.core.run k t = .next u := by
  cases hs : step s with
  | next t => exact ⟨t, rfl, by rwa [run_succ k hs] at h⟩
  | fault r =>
    have h' : Sys2Proof.core.step s = Host.Outcome.fault r := hs
    simp only [Host.Core.run, h'] at h
    cases h
  | refused r =>
    have h' : Sys2Proof.core.step s = Host.Outcome.refused r := hs
    simp only [Host.Core.run, h'] at h
    cases h

/-- What every step keeps, every run keeps. -/
theorem run_induction {P : State → Prop} (hstep : ∀ s t, P s → step s = .next t → P t) {k : Nat} {s t : State}
    (hs : P s) (h : Sys2Proof.core.run k s = .next t) : P t := by
  induction k generalizing s with
  | zero => cases h; exact hs
  | succ k ih =>
    obtain ⟨u, hu, hr⟩ := run_succ_inv h
    exact ih (hstep s u hs hu) hr

end Sys2Proof.Machine
end

