-- ==== Sys2Proof/Tests/Slice0.lean ====
section
/-! SUPPORT. Tests: the checks of WellFormed, words written out from the spec's encodings, one-step vectors of
95_test_vectors.md (the id V-… or P… stands beside each), and for every statement with hypotheses a state and operands
that meet them. -/

namespace Sys2Proof.Tests

open Sys2Proof.Machine

/-! ### The checks of WellFormed refuse ill-formed terms (R95, R100, R102, R103) -/

theorem test_register_16_refused :
    (Asm.add 16 0 0).wellFormed 0 = false ∧ (Asm.nand 0 16 0).wellFormed 0 = false ∧
      (Asm.add 0 0 16).wellFormed 0 = false ∧ (Asm.jalr 16 0).wellFormed 0 = false ∧
      (Asm.str 16 0 0).wellFormed 0 = false ∧ (Asm.add 15 15 15).wellFormed 0 = true := by decide

theorem test_immediate_out_of_range_refused :
    (Asm.addi 1 1 524288).wellFormed 0 = false ∧ (Asm.addi 1 1 (-524289)).wellFormed 0 = false ∧
      (Asm.ldr 1 524288 1).wellFormed 0 = false ∧ (Asm.str 1 (-524289) 1).wellFormed 0 = false ∧
      (Asm.addi 1 1 524287).wellFormed 0 = true ∧ (Asm.addi 1 1 (-524288)).wellFormed 0 = true := by decide

theorem test_distance_32_refused :
    (Asm.shfll 1 1 32).wellFormed 0 = false ∧ (Asm.shfrl 1 1 32).wellFormed 0 = false ∧
      (Asm.shfra 1 1 32).wellFormed 0 = false ∧ (Asm.shfra 1 1 31).wellFormed 0 = true := by decide

theorem test_label_out_of_reach_refused :
    (Asm.br 0x80001#32).wellFormed 0 = false ∧ (Asm.lea 1 0x80001#32).wellFormed 0 = false ∧
      (Asm.brn 0#32).wellFormed 0x80000#32 = false ∧ (Asm.br 0x80000#32).wellFormed 0 = true ∧
      (Asm.brn 0#32).wellFormed 0x7FFFF#32 = true := by decide

theorem test_left_shift_with_A_not_canonical :
    Instr.canonical (.shf 2 3 true false 4) = false ∧ Instr.canonical (.shf 2 3 false false 4) = true ∧
      Instr.canonical (.shf 2 3 true true 4) = true := by decide

theorem test_br_testing_nothing_not_spellable :
    Instr.spellable (.br false false false 7) = false ∧ Instr.spellable (.br false false true 7) = true ∧
      Instr.spellable (.shf 2 3 true false 4) = false := by decide

theorem test_assemble_refuses : assemble 0 (.addi 1 1 524288) = none ∧ assemble 0 (.add 16 0 0) = none := by decide

/-! ### Every constructor, from a word written out field by field (R79 to R86) -/

theorem test_decode_add :
    decode (0b0000#4 ++ 0b0010#4 ++ 0b0011#4 ++ 0b0000000000000000#16 ++ 0b0100#4) = .ok (.add 2 3 4) := by decide

theorem test_decode_addi :
    decode (0b0001#4 ++ 0b0110#4 ++ 0b1001#4 ++ 0b11111111111111111110#20) = .ok (.addi 6 9 0xFFFFE) := by decide

theorem test_decode_nand :
    decode (0b0010#4 ++ 0b0110#4 ++ 0b0011#4 ++ 0b0000000000000000#16 ++ 0b1000#4) = .ok (.nand 6 3 8) := by decide

theorem test_decode_br :
    decode (0b0011#4 ++ 0b0000#4 ++ 0b0100#4 ++ 0b00000000000000000101#20) = .ok (.br true false false 5) ∧
      decode (0b0011#4 ++ 0b0000#4 ++ 0b0010#4 ++ 0b00000000000000000101#20) = .ok (.br false true false 5) ∧
      decode (0b0011#4 ++ 0b0000#4 ++ 0b0001#4 ++ 0b00000000000000000101#20) = .ok (.br false false true 5) := by
  decide

theorem test_decode_jalr :
    decode (0b0100#4 ++ 0b1111#4 ++ 0b0110#4 ++ 0b00000000000000000000#20) = .ok (.jalr 15 6) := by decide

theorem test_decode_ldr :
    decode (0b0101#4 ++ 0b0111#4 ++ 0b0011#4 ++ 0b00000000000000000001#20) = .ok (.ldr 7 3 1) := by decide

theorem test_decode_lea :
    decode (0b0110#4 ++ 0b0011#4 ++ 0b0000#4 ++ 0b00000000000000000111#20) = .ok (.lea 3 7) := by decide

theorem test_decode_str :
    decode (0b0111#4 ++ 0b1000#4 ++ 0b0011#4 ++ 0b00000000000000000010#20) = .ok (.str 8 3 2) := by decide

theorem test_decode_shf :
    decode (0b1000#4 ++ 0b0011#4 ++ 0b0101#4 ++ 0b1#1 ++ 0b1#1 ++ 0b0000000000000#13 ++ 0b10001#5) =
        .ok (.shf 3 5 true true 17) ∧
      decode (0b1000#4 ++ 0b0011#4 ++ 0b0101#4 ++ 0b0#1 ++ 0b1#1 ++ 0b0000000000000#13 ++ 0b00001#5) =
        .ok (.shf 3 5 false true 1) := by decide

theorem test_decode_halt : decode (0b1111#4 ++ 0b0000000000000000000000000000#28) = .ok .halt := by decide

/-- V-DEC-4 to V-DEC-6. -/
theorem test_decode_undefined : decode 0x90000000#32 = .error .undefinedOpcode ∧
    decode 0xA0000000#32 = .error .undefinedOpcode ∧ decode 0xB0000000#32 = .error .undefinedOpcode ∧
    decode 0xC0000000#32 = .error .undefinedOpcode ∧ decode 0xD0000000#32 = .error .undefinedOpcode ∧
    decode 0xEFFFFFFF#32 = .error .undefinedOpcode := by decide

/-- V-BR-9, V-BR-10, V-DEC-9. -/
theorem test_decode_reserved : decode 0x30800000#32 = .error .reservedBrBits ∧
    decode 0x31700000#32 = .error .reservedBrBits ∧ decode 0x3F800000#32 = .error .reservedBrBits := by decide

/-- V-ADD-9, V-JALR-7, V-LEA-6, V-SHF-21, V-DEC-2. -/
theorem test_decode_ignores_unused : decode 0x023FFFF4#32 = .ok (.add 2 3 4) ∧
    decode 0x4F6ABCDE#32 = .ok (.jalr 15 6) ∧ decode 0x62F00003#32 = .ok (.lea 2 3) ∧
    decode 0x8237FFE1#32 = .ok (.shf 2 3 false true 1) ∧ decode 0xFFFFFFFF#32 = .ok .halt := by decide

/-! ### One step -/

/-- A state with a pc and some registers given, the rest as after reset. -/
def regsAt (pc : Word) (rs : List (RegNum × Word)) : State :=
  (rs.foldl (fun s r => s.writeReg r.1 r.2) State.reset).setPc pc

/-- The flags with only N, only Z, only P set. -/
def onlyN : Flags := { n := true, z := false, p := false }
def onlyZ : Flags := { n := false, z := true, p := false }
def onlyP : Flags := { n := false, z := false, p := true }

/-- The state after the word `w` has run as the next instruction of `s`. -/
def after (s : State) (w : Nat) : Option State :=
  match step (s.withFetchWord 32 w) with
  | .next t => some t
  | _ => none

/-- A register, the flags and the pc after the word `w` has run. -/
def seen (s : State) (w : Nat) (r : RegNum) : Option (Word × Flags × Word) :=
  (after s w).map fun t => (t.readReg r, t.cc, t.pc)

/-- V-ADD-3: signed overflow wraps. -/
theorem test_add_overflow :
    seen (regsAt 0 [(3, 0x7FFFFFFF), (4, 1)]) 0x02300004 2 = some (0x80000000, onlyN, 1) := by decide

/-- V-ADD-8: DR = 0 still sets the flags, register 0 stays 0. -/
theorem test_add_to_zero_sets_flags :
    seen (regsAt 0 [(3, 0x80000001)]) 0x00300000 0 = some (0, onlyN, 1) := by decide

/-- V-ADDI-2: the most negative immediate. -/
theorem test_addi_most_negative : seen (regsAt 0 []) 0x12080000 2 = some (0xFFF80000, onlyN, 1) := by decide

/-- V-ADDI-1: DR = SR1. -/
theorem test_addi_to_zero : seen (regsAt 0 [(6, 1)]) 0x166FFFFF 6 = some (0, onlyZ, 1) := by decide

/-- V-NAND-5. -/
theorem test_nand :
    seen (regsAt 0 [(3, 0x0F0F0F0F), (4, 0x00FF00FF)]) 0x22300004 2 = some (0xFFF0FFF0, onlyN, 1) := by decide

/-- V-BR-1 and V-BR-2: taken on P, not taken on Z. -/
theorem test_br_taken_or_not :
    (after ((regsAt 4 []).writeFlags onlyP) 0x301FFFFD).map (·.pc) = some 2 ∧
      (after ((regsAt 4 []).writeFlags onlyZ) 0x301FFFFD).map (·.pc) = some 5 := by decide

/-- V-BR-12: the pc is 32 bits. -/
theorem test_br_below_zero :
    (after ((regsAt 0 []).writeFlags onlyN) 0x304FFFFE).map (·.pc) = some 0xFFFFFFFF := by decide

/-- V-JALR-1. -/
theorem test_jalr_call :
    (after (regsAt 3 [(6, 0x10)]) 0x4F600000).map (fun t => (t.readReg 15, t.pc, t.ccWritten)) =
      some (4, 0x10, false) := by decide

/-- V-JALR-3: RA = AT falls through. -/
theorem test_jalr_same_register :
    (after (regsAt 0x20 [(6, 0x99)]) 0x46600000).map (fun t => (t.readReg 6, t.pc)) = some (0x21, 0x21) := by decide

/-- V-LDR-5: the address sum wraps. -/
theorem test_ldr_wraps :
    seen ((regsAt 0 [(3, 0xFFFFFFFF)]).memWrite 1 0x80000000) 0x52300002 2 = some (0x80000000, onlyN, 1) := by decide

/-- V-LDR-4: the upper eight address bits are ignored. -/
theorem test_ldr_alias :
    seen ((regsAt 0 [(3, 0x01000005)]).memWrite 5 0x12345678) 0x52300000 2 = some (0x12345678, onlyP, 1) := by decide

/-- V-LEA-4: the address is not truncated. -/
theorem test_lea_full_width : seen (regsAt 0x00FFFFFF []) 0x62000000 2 = some (0x01000000, onlyP, 0x01000000) := by
  decide

/-- V-LEA-2. -/
theorem test_lea_negative : seen (regsAt 0 []) 0x620FFFFE 2 = some (0xFFFFFFFF, onlyN, 1) := by decide

/-- V-STR-4: the store aliases address 5, and changes no flag. -/
theorem test_str_alias :
    (after (regsAt 0 [(3, 0xFF000005), (2, 0xCAFEF00D)]) 0x72300000).map
      (fun t => (t.memRead 5, t.ccWritten, t.pc)) = some (0xCAFEF00D, false, 1) := by decide

/-- V-STR-5: the last word of memory. -/
theorem test_str_last_word :
    (after (regsAt 0 [(2, 1)]) 0x720FFFFF).map (·.memRead 0xFFFFFF) = some 1 := by decide

/-- V-SHF-18: an arithmetic shift keeps the sign. -/
theorem test_shf_arithmetic : seen (regsAt 0 [(3, 0x92345678)]) 0x823C0004 2 = some (0xF9234567, onlyN, 1) := by
  decide

/-- V-SHF-16: A is ignored in a left shift. -/
theorem test_shf_left_ignores_A : seen (regsAt 0 [(3, 0x12345678)]) 0x82380004 2 = some (0x23456780, onlyP, 1) := by
  decide

/-- V-DEC-1. -/
theorem test_halt : (after (regsAt 0 [(3, 7)]) 0xF0000000).map (fun t => (t.halted, t.readReg 3)) =
    some (true, 7) := by decide

/-! ### Table 1 (R26) -/

theorem test_register_names : registerNumber "$zero" = some 0 ∧ registerNumber "$k0" = some 12 ∧
    registerNumber "$ra" = some 15 ∧ registerNumber "$gp" = none := by decide

/-! ### The hypotheses of the statements can be met -/

/-- A state at pc `pc`, flags P, with the word `w` to run next. -/
def ready (pc : Word) (rs : List (RegNum × Word)) (w : Nat) : State :=
  ((regsAt pc rs).writeFlags onlyP).withFetchWord 32 w

/-- The decode clauses of the ten instruction statements, the last one for SHF, HALT and BR included. -/
theorem witness_opcodes : (0x02300004#32).extractLsb' 28 4 = 0b0000#4 ∧ (0x166FFFFF#32).extractLsb' 28 4 = 0b0001#4 ∧
    (0x26300008#32).extractLsb' 28 4 = 0b0010#4 ∧
    ((0x301FFFFD#32).extractLsb' 28 4 = 0b0011#4 ∧ (0x301FFFFD#32).extractLsb' 23 5 = 0#5) ∧
    (0x4F600000#32).extractLsb' 28 4 = 0b0100#4 ∧ (0x57300001#32).extractLsb' 28 4 = 0b0101#4 ∧
    (0x63000007#32).extractLsb' 28 4 = 0b0110#4 ∧ (0x78300002#32).extractLsb' 28 4 = 0b0111#4 ∧
    (0x833C0001#32).extractLsb' 28 4 = 0b1000#4 ∧ (0xFFFFFFFF#32).extractLsb' 28 4 = 0b1111#4 := by decide

/-- BrBranchesOnTestedFlag, both clauses: P tested with P set, and N tested with P set. -/
theorem witness_BrBranchesOnTestedFlag :
    (true = true ∧ (ready 4 [] 0).flags.p = true) ∧
      ¬(true = true ∧ (ready 4 [] 0).flags.n = true ∨ false = true ∧ (ready 4 [] 0).flags.z = true ∨
        false = true ∧ (ready 4 [] 0).flags.p = true) := by decide

/-- StrStoresWordAtBasePlusOffset: the words on both sides of the one stored at address 5, and the last word. -/
theorem witness_StrStoresWordAtBasePlusOffset : 4 ≠ wordCell (5#32 + (0#20).signExtend 32) ∧
    5 = wordCell (5#32 + (0#20).signExtend 32) ∧ 6 ≠ wordCell (5#32 + (0#20).signExtend 32) ∧
    0xFFFFFF ≠ wordCell (5#32 + (0#20).signExtend 32) := by decide

/-- StepRunsFetchedInstruction, both clauses: a halted machine, and a running one at the last word of memory. -/
theorem witness_StepRunsFetchedInstruction : State.reset.halt.halted = true ∧
    (ready 0x00FFFFFF [(3, 5), (4, 7)] 0x02300004).halted = false ∧
    decode ((ready 0x00FFFFFF [(3, 5), (4, 7)] 0x02300004).memRead 0x00FFFFFF) = .ok (.add 2 3 4) := by decide

theorem witness_PlacedInstructionIsRun : decode (BitVec.ofNat 32 0x02300004) = .ok (.add 2 3 4) := by decide

/-- UndefinedOpcodesAreRefused: both ends of the range, and the opcodes beside it. -/
theorem witness_UndefinedOpcodesAreRefused : (ready 0 [] 0x90000000).halted = false ∧
    (((ready 0 [] 0x90000000).memRead 0).extractLsb' 28 4).toNat = 9 ∧
    (((ready 0 [] 0xE0000000).memRead 0).extractLsb' 28 4).toNat = 14 ∧
    (((ready 0 [] 0x80000000).memRead 0).extractLsb' 28 4).toNat = 8 ∧
    (((ready 0 [] 0xF0000000).memRead 0).extractLsb' 28 4).toNat = 15 := by decide

theorem witness_ReservedBrBitsAreRefused : (ready 0 [] 0x30800000).halted = false ∧
    ((ready 0 [] 0x30800000).memRead 0).extractLsb' 28 4 = 0b0011#4 ∧
    ((ready 0 [] 0x30800000).memRead 0).extractLsb' 23 5 ≠ 0#5 := by decide

theorem witness_EncodeOfDecodeUpToUnusedBits : decode 0x023FFFF4#32 = .ok (.add 2 3 4) := by decide

theorem witness_UnusedBitsDoNotMatter : decode 0x02300004#32 = .ok (.add 2 3 4) ∧
    0x023FFFF4#32 &&& usedBits (.add 2 3 4) = 0x02300004#32 &&& usedBits (.add 2 3 4) ∧
    0x023FFFF4#32 ≠ 0x02300004#32 := by decide

/-- OnlyTheDestinationRegisterChanges, both alternatives: another register, and register 0 as destination. -/
theorem witness_OnlyTheDestinationRegisterChanges :
    (exec (.add 2 3 4) (ready 0 [(3, 5), (4, 7)] 0) = .next ((ready 0 [(3, 5), (4, 7)] 0).deliver 2 12)) ∧
      destination (.add 2 3 4) ≠ some 3 ∧ destination (.add 0 3 4) = some 0 := ⟨rfl, by decide, by decide⟩

/-- OnlyTheSourceRegistersMatter: two states that differ in a register ADD 2 3 4 does not name. -/
theorem witness_OnlyTheSourceRegistersMatter :
    let s := ready 0 [(3, 5), (4, 7)] 0
    let s' := s.writeReg 9 1
    (∀ q ∈ sources (.add 2 3 4), s'.readReg q = s.readReg q) ∧ s'.pc = s.pc ∧ s'.cc = s.cc ∧ s'.ccWritten = s.ccWritten ∧
      s'.mem = s.mem ∧ s'.halted = s.halted ∧ s.halted = false ∧ s'.readReg 9 = 1 := by decide

/-- NextPcTable and FlagsAreWrittenByExactlySix: instructions of each kind give a next state. -/
theorem witness_FlagsAreWrittenByExactlySix :
    setsFlags (.lea 2 7) = true ∧ (exec (.lea 2 7) (ready 0 [] 0) = .next ((ready 0 [] 0).deliver 2 8)) ∧
      setsFlags (.jalr 0 0) = false ∧ (exec (.jalr 0 0) (ready 0 [] 0) = .next ((ready 0 [] 0).setPc 0)) :=
  ⟨rfl, rfl, rfl, rfl⟩

/-- OnlyHaltHalts: a step that halts and one that does not. -/
theorem witness_OnlyHaltHalts : (after (ready 0 [] 0) 0xF0000000).map (·.halted) = some true ∧
    (after (ready 0 [] 0) 0x00000000).map (·.halted) = some false := by decide

/-- OnlyAStoreChangesMemory: the step writes the word at address 5. -/
theorem witness_OnlyAStoreChangesMemory :
    (after (regsAt 0 [(3, 5), (2, 1)]) 0x72300000).map (fun t => readCell t.mem 5) = some (some 1) ∧
      readCell ((regsAt 0 [(3, 5), (2, 1)]).withFetchWord 32 0x72300000).mem 5 = none := by decide

/-- AdditionIsModulo2Pow32: the two ends of the range in which sums are exact, for a register other than 0. -/
theorem witness_AdditionIsModulo2Pow32 :
    let low := ready 0 [(3, 0x80000001), (4, 0xFFFFFFFF), (5, 0x80080000)] 0
    let high := ready 0 [(3, 0x7FFFFFFE), (4, 1), (5, 0x7FF80000)] 0
    (2#4 : RegNum) ≠ 0#4 ∧ (low.readReg 3).toInt + (low.readReg 4).toInt = -2 ^ 31 ∧
      (high.readReg 3).toInt + (high.readReg 4).toInt = 2 ^ 31 - 1 ∧
      (low.readReg 5).toInt + (0x80000#20).toInt = -2 ^ 31 ∧
      (high.readReg 5).toInt + (0x7FFFF#20).toInt = 2 ^ 31 - 1 := by decide

/-- BrOnUnwrittenFlagsIsADraw: the flags after reset; the first clause is met by n = z = p = 0, and of the other
two one is met whatever the free bits are. -/
theorem witness_BrOnUnwrittenFlagsIsADraw : State.reset.ccWritten = false ∧
    ((true && Config.startN || true && Config.startZ || true && Config.startP) = true ∨
      (true && Config.startN || true && Config.startZ || true && Config.startP) = false) ∧
    (false && Config.startN || false && Config.startZ || false && Config.startP) = false := by
  refine ⟨rfl, ?_, ?_⟩
  · cases (true && Config.startN || true && Config.startZ || true && Config.startP) <;> simp
  · simp

/-- BranchToSelfLoopsForEver (V-BR-4). -/
theorem witness_BranchToSelfLoopsForEver : (ready 4 [] 0x307FFFFF).halted = false ∧
    decode (ready 4 [] 0x307FFFFF).fetch = .ok (.br true true true 0xFFFFF#20) ∧
    (true && (ready 4 [] 0x307FFFFF).flags.n || true && (ready 4 [] 0x307FFFFF).flags.z ||
      true && (ready 4 [] 0x307FFFFF).flags.p) = true := by decide

theorem witness_AddressesAliasModulo2Pow24 : (0x05000010#32).toNat % 2 ^ 24 = (0x00000010#32).toNat % 2 ^ 24 := by decide

/-- LoadSeesMostRecentStore: STR $v0, 0($a0) with a0 = FF000005, then `ADDI $t0, $zero, 5`, then a load at 5. -/
theorem witness_LoadSeesMostRecentStore :
    let s := ready 0 [(3, 0xFF000005), (2, 0xCAFEF00D)] 0x72300000
    let s1 := (s.memWrite 0xFF000005 0xCAFEF00D).advance.memWrite 1 0x16000005
    let r := (s.memWrite 1 0x16000005)
    (exec (.str 2 3 0) r = .next (r.memWrite 0xFF000005 0xCAFEF00D).advance) ∧
      (r.memWrite 0xFF000005 0xCAFEF00D).advance = s1 ∧
      State.noStoreFor (0xFF000005#32 + (0#20).signExtend 32) 1 s1 = true ∧
      (Sys2Proof.core.run 1 s1 = .next (s1.deliver 6 5)) ∧ sameWord 5#32 (0xFF000005#32 + (0#20).signExtend 32) ∧
      (s1.deliver 6 5).halted = false ∧ (s1.deliver 6 5).readReg 6 + (0#20).signExtend 32 = 5#32 :=
  ⟨rfl, by decide, by decide, rfl, by decide, by decide, by decide⟩

/-- StoredInstructionIsExecutedNext: a STR of the word of ADD $v0, $a0, $a0 to the address after its own. -/
theorem witness_StoredInstructionIsExecutedNext :
    let s := ready 0 [(3, 1), (2, 0x02300003)] 0x72300000
    s.halted = false ∧ decode s.fetch = .ok (.str 2 3 0) ∧
      sameWord (s.pc + 1#32) (s.readReg 3 + (0#20).signExtend 32) ∧ decode (s.readReg 2) = .ok (.add 2 3 3) ∧
      (step s = .next (s.memWrite 1 0x02300003).advance) := ⟨by decide, by decide, by decide, by decide, rfl⟩

/-- LoadedImageReadsBack: an image of two words, its last index, and an address outside it. -/
theorem witness_LoadedImageReadsBack : [0x12000001#32, 0xF0000000#32].length ≤ 2 ^ 24 ∧
    1 < [0x12000001#32, 0xF0000000#32].length ∧ 0 < [0x12000001#32, 0xF0000000#32].length ∧
    ∀ k < [0x12000001#32, 0xF0000000#32].length, ¬sameWord 2#32 (0#32 + BitVec.ofNat 32 k) := by decide

/-- ResetStateIsUnwritten: a register other than 0. -/
theorem witness_ResetStateIsUnwritten : (1#4 : RegNum) ≠ 0#4 ∧ (15#4 : RegNum) ≠ 0#4 := by decide

/-- EveryStepKeepsInv: a state with registers, flags and memory written, and the step it takes. -/
theorem witness_EveryStepKeepsInv :
    (ready 0 [(3, 0x01000005)] 0x12000001).Inv ∧
      (step (ready 0 [(3, 0x01000005)] 0x12000001) = .next ((ready 0 [(3, 0x01000005)] 0x12000001).deliver 2 1)) :=
  ⟨⟨by decide, fun _ => Or.inr (Or.inr (by decide)), by decide, by decide, by decide⟩, rfl⟩

/-- EveryRunKeepsInv: one step from the boot state of N3's image. -/
theorem witness_EveryRunKeepsInv :
    Sys2Proof.core.run 1 (State.boot [0x12000001, 0x90000000]) =
      .next ((State.boot [0x12000001, 0x90000000]).deliver 2 1) := rfl

/-- WrittenStaysWritten: each clause is met by a step. -/
theorem witness_WrittenStaysWritten :
    let s := ready 0 [(3, 5)] 0x12000001
    (step s = .next (s.deliver 2 1)) ∧ s.regReady 3 = true ∧ s.ccWritten = true ∧ (readCell s.mem 0).isSome = true :=
  ⟨rfl, by decide, by decide, by decide⟩

/-- CleanRunsIgnoreUnwrittenState: the first step of N3's image is clean, and the state with register 9 filled in
completes the boot state. -/
theorem witness_CleanRunsIgnoreUnwrittenState :
    State.cleanFor 1 (State.boot [0x12000001, 0x90000000]) = true ∧
      (State.boot [0x12000001, 0x90000000]).completes ((State.boot [0x12000001, 0x90000000]).writeReg 9 1) ∧
      (Sys2Proof.core.run 1 (State.boot [0x12000001, 0x90000000]) =
        .next ((State.boot [0x12000001, 0x90000000]).deliver 2 1)) := by
  refine ⟨by decide, ⟨fun _ => rfl, rfl, rfl, ?_, ?_, fun _ _ h => h⟩, rfl⟩
  · decide
  · decide

/-- FinishedRunsHaveOneResult: the image of a single HALT is finished after one step, and the state with register 9
filled in completes its boot state. -/
theorem witness_FinishedRunsHaveOneResult :
    (State.boot [0xF0000000]).finishes 1 (State.boot [0xF0000000]).halt ∧
      (State.boot [0xF0000000]).completes ((State.boot [0xF0000000]).writeReg 9 1) :=
  ⟨⟨rfl, rfl, by decide⟩, ⟨fun _ => rfl, rfl, rfl, by decide, by decide, fun _ _ h => h⟩⟩

/-- A run that reads a register nothing has written is not a finished run, though it halts (N2 of 95_test_vectors.md). -/
theorem test_unwritten_read_not_finished : State.cleanFor 2 (State.boot [0x02300004, 0xF0000000]) = false := by decide

/-- LabelsAreReached: the label at each end of the reach, and the flags of a state. -/
theorem witness_LabelsAreReached : labelInReach (ready 0x80000 [] 0).pc 0x00000001#32 = true ∧
    labelInReach (ready 0x80000 [] 0).pc 0x00100000#32 = true ∧ (2#4 : RegNum) ≠ 0#4 ∧
    (ready 0x80000 [] 0).flags.oneHot := ⟨by decide, by decide, by decide, Or.inr (Or.inr (by decide))⟩

/-- AssemblyReachesExactlySpellable, both clauses: `BRp` with offset -3 at address 4. -/
theorem witness_AssemblyReachesExactlySpellable : assemble 4 (.brp 2) = some (.br false false true 0xFFFFD) ∧
    Instr.spellable (.br false false true 0xFFFFD) = true := by decide

/-- ShfMnemonicBits: the largest distance. -/
theorem witness_ShfMnemonicBits : 31 ≤ 31 ∧ (Asm.shfra 2 3 31).toInstr 0 = .shf 2 3 true true 31 := by decide

/-- NextMicrostateSource: a control word for each of the four clauses. -/
theorem witness_NextMicrostateSource :
    let plain : Control := { nextState := 1 }
    (plain.opTest = false ∧ plain.chkCc = false) ∧ ({ plain with opTest := true }.opTest = true) ∧
      ({ plain with chkCc := true }.chkCc = true ∧ { plain with chkCc := true }.opTest = false) := by decide

/-- RegisterSelectionMap, both clauses: a microstate that drives the register RY names, and one that writes the
register RX names, with the IR of ADD $v0, $a0, $a1. -/
theorem witness_RegisterSelectionMap :
    (loadAfromRY 0).drReg = true ∧ regSelect (loadAfromRY 0).regSelHi (loadAfromRY 0).regSelLo 0x02300004#32 = some 3 ∧
      (aluToDr false false).wrReg = true ∧
      regSelect (aluToDr false false).regSelHi (aluToDr false false).regSelLo 0x02300004#32 = some 2 := by decide

/-- HaltMicrostatesNeverFetch and InstructionMicrostatesReturnToFetch: the sketch follows the cycle, and its microstates
of HALT, of ADD and of SHF have the numbers 32, 3 and 29. -/
theorem witness_HaltMicrostatesNeverFetch : followsCycle sketchConfig = true ∧ seqStart sketchConfig 0b1111#4 = 32 ∧
    seqStart sketchConfig 0b0000#4 = 3 ∧ seqStart sketchConfig 0b1000#4 = 29 := by decide

/-- The cycle is a condition that ROM contents can fail: a HALT whose sequencer word is the first FETCH microstate, and
an ADD whose sequencer word is the HALT microstate. -/
theorem test_cycle_can_fail :
    followsCycle { sketchConfig with seqRom := sketchConfig.seqRom.set 15 0 } = false ∧
      followsCycle { sketchConfig with seqRom := sketchConfig.seqRom.set 0 32 } = false := by decide

/-- The sketch with an ADD at the pc, in its first FETCH microstate. -/
def microAt (w : Nat) : MicroState where
  arch := ready 0 [(3, 5), (4, 7)] w
  ir := 0
  mar := 0
  latchA := 0
  latchB := 0
  ustate := sketchFetch

/-- MicrostateChangesOnlyWhatItLoads: the first FETCH microstate runs, loads MAR and A, and loads nothing else. -/
theorem witness_MicrostateChangesOnlyWhatItLoads :
    (microStep sketchConfig (microAt 0x02300004) = .next { microAt 0x02300004 with ustate := 1 }) ∧
      (MicroState.control sketchConfig (microAt 0x02300004)).ldPc = false ∧
      (MicroState.control sketchConfig (microAt 0x02300004)).wrReg = false := ⟨rfl, by decide, by decide⟩

theorem witness_SketchMicroprogramImplementsInstructions : (microAt 0x02300004).ustate = sketchFetch ∧
    decode (microAt 0x02300004).arch.fetch = .ok (.add 2 3 4) ∧ Instr.add 2 3 4 ≠ .halt := by decide

/-- SketchCarriesOutRuns: a run of one ADD. -/
theorem witness_SketchCarriesOutRuns : (microAt 0x02300004).ustate = sketchFetch ∧
    (Sys2Proof.core.run 1 (microAt 0x02300004).arch = .next ((microAt 0x02300004).arch.deliver 2 12)) ∧
    ((microAt 0x02300004).arch.deliver 2 12).halted = false := ⟨rfl, rfl, rfl⟩

theorem witness_SketchMicroprogramHaltNeverFetches : (microAt 0xF1234567).ustate = sketchFetch ∧
    decode (microAt 0xF1234567).arch.fetch = .ok .halt := by decide

end Sys2Proof.Tests
end

section
/-! PROOFS. The statements of 00_scope.md: the step (R18), SetCC (R15), sign extension (R13), and the invariant that
every step keeps. -/

namespace Sys2Proof.Machine

/-! ### The step runs the instruction at the pc (R18, R222) -/

/-- A halted machine has no step (R18). -/
theorem step_of_halted {s : State} (h : s.halted = true) : step s = .fault .halted := by simp [step, h]

/-- Settles O11: each clause is the branch of `step` that the halted bit selects. -/
theorem stepRunsFetchedInstruction : Obligations.StepRunsFetchedInstruction :=
  fun _ => ⟨step_of_halted, fun hrun _ hdec => step_of_decode hrun hdec⟩

@[simp] theorem State.withFetchWord_halted (s : State) (nbits w : Nat) :
    (s.withFetchWord nbits w).halted = false := rfl

/-- The word placed at the pc is the word the next step fetches (log 5). -/
@[simp] theorem State.fetch_withFetchWord (s : State) (nbits w : Nat) :
    (s.withFetchWord nbits w).fetch = tableWord nbits w := by
  have hread : (s.memWrite s.pc (tableWord nbits w)).memRead s.pc = tableWord nbits w := by
    simp [memRead_memWrite]
  exact hread

/-- An instruction of 32 bits is its own table word: no bit is cut off. -/
theorem tableWord_full (w : Nat) : tableWord 32 w = BitVec.ofNat 32 w :=
  BitVec.eq_of_toNat_eq (by simp [tableWord])

/-- Settles O12: the fetch returns the placed word, whatever the pc and the memory were. -/
theorem placedInstructionIsRun : Obligations.PlacedInstructionIsRun := by
  intro s w i hdec
  have hfetch : decode (s.withFetchWord 32 w).fetch = .ok i := by
    rw [State.fetch_withFetchWord, tableWord_full, hdec]
  exact step_of_decode (s.withFetchWord_halted 32 w) hfetch

/-! ### SetCC (R15, R38) -/

/-- The flags of a value are one-hot: a value is negative, zero or positive (R38). -/
theorem Flags.oneHot_ofValue (v : Word) : (Flags.ofValue v).oneHot := by
  rcases Flags.ofValue_cases v with ⟨-, hneg⟩ | ⟨-, hzero⟩ | ⟨-, -, hpos⟩
  · exact .inl hneg
  · exact .inr (.inl hzero)
  · exact .inr (.inr hpos)

/-- SetCC leaves flags that are written and describe its value. -/
theorem State.setCC_flagsDescribe (s : State) (v : Word) : (s.setCC v).flagsDescribe v :=
  ⟨setCC_ccWritten s v, Flags.ofValue_sign v⟩

/-- Settles O24. -/
theorem setCCDescribesSign : Obligations.SetCCDescribesSign :=
  fun s v => ⟨s.setCC_flagsDescribe v, Flags.oneHot_ofValue v⟩

/-! ### Sign extension (R13) -/

/-- Bits 31:20 of a sign-extended field are copies of its bit 19, the bits below are the field's own. -/
theorem getLsbD_sext20 (v : Field20) {i : Nat} (hi : i < 32) :
    (sext20 v).getLsbD i = if i < 20 then v.getLsbD i else v.getLsbD 19 := by
  rw [sext20, BitVec.getLsbD_signExtend, BitVec.msb_eq_getLsbD_last]
  simp only [hi, decide_true, Bool.true_and]

/-- Sign extension keeps the signed value. -/
@[simp] theorem toInt_sext20 (v : Field20) : (sext20 v).toInt = v.toInt :=
  BitVec.toInt_signExtend_of_le (by decide)

/-- Settles O27. -/
theorem signExtensionOfFields : Obligations.SignExtensionOfFields := by
  intro v
  have hlow : -2 ^ 19 ≤ v.toInt := BitVec.le_toInt v
  have hhigh : v.toInt < 2 ^ 19 := BitVec.toInt_lt
  exact ⟨fun _ hi => getLsbD_sext20 v hi, toInt_sext20 v, by omega, by omega⟩

/-! ### The invariant: each update of the state keeps it -/

/-- A register write replaces the entry of that register alone, and of register 0 not even that (R27). -/
theorem State.writeReg_regs_getElem (s : State) (r : RegNum) (v : Word) (i : Fin 16) :
    (s.writeReg r v).regs[i] = if i.val = r.toNat ∧ r ≠ 0#4 then v else s.regs[i] := by
  by_cases hr : r = 0#4
  · simp [hr]
  · simp [writeReg, hr, Vector.getElem_set, eq_comm]

/-- A register write marks that register alone as written, and register 0 never (R27). -/
theorem State.writeReg_regWritten_getElem (s : State) (r : RegNum) (v : Word) (i : Fin 16) :
    (s.writeReg r v).regWritten[i] = if i.val = r.toNat ∧ r ≠ 0#4 then true else s.regWritten[i] := by
  by_cases hr : r = 0#4
  · simp [hr]
  · simp [writeReg, hr, Vector.getElem_set, eq_comm]

namespace State.Inv

variable {s : State}

/-- A register write marks what it writes, so the unmarked entries keep their placeholders; register 0 stays
unmarked. -/
theorem writeReg (hs : s.Inv) (r : RegNum) (v : Word) : (s.writeReg r v).Inv where
  memory := by simpa using hs.memory
  flagsOneHot := by simpa using hs.flagsOneHot
  flagsPlaceholder := by simpa using hs.flagsPlaceholder
  regsPlaceholder := fun i hi => by
    rw [writeReg_regWritten_getElem] at hi
    rw [writeReg_regs_getElem]
    split at hi
    · cases hi
    · next hother => rw [if_neg hother, hs.regsPlaceholder i hi]
  zeroUnwritten := by
    have hzero := writeReg_regWritten_getElem s r v 0
    have hnot : ¬ ((0 : Fin 16).val = r.toNat ∧ r ≠ 0#4) := fun ⟨h0, hr⟩ => hr (BitVec.eq_of_toNat_eq h0.symm)
    rw [if_neg hnot] at hzero
    exact hzero.trans hs.zeroUnwritten

/-- SetCC leaves written flags of which exactly one is 1 (R38). -/
theorem setCC (hs : s.Inv) (v : Word) : (s.setCC v).Inv where
  memory := hs.memory
  flagsOneHot := fun _ => Flags.oneHot_ofValue v
  flagsPlaceholder := fun h => by simp at h
  regsPlaceholder := hs.regsPlaceholder
  zeroUnwritten := hs.zeroUnwritten

/-- An update that leaves registers, flags and their records alone has only the memory to keep canonical. -/
theorem of_same_regs_flags {t : State} (hs : s.Inv) (hmem : t.mem.wf) (hregs : t.regs = s.regs)
    (hwritten : t.regWritten = s.regWritten) (hcc : t.cc = s.cc) (hccw : t.ccWritten = s.ccWritten) : t.Inv where
  memory := hmem
  flagsOneHot := by rw [hcc, hccw]; exact hs.flagsOneHot
  flagsPlaceholder := by rw [hcc, hccw]; exact hs.flagsPlaceholder
  regsPlaceholder := by rw [hregs, hwritten]; exact hs.regsPlaceholder
  zeroUnwritten := by rw [hwritten]; exact hs.zeroUnwritten

/-- A store keeps the canonical form of the memory (R54). -/
theorem memWrite (hs : s.Inv) (addr v : Word) : (s.memWrite addr v).Inv :=
  hs.of_same_regs_flags (wf_writeWord addr v hs.memory) rfl rfl rfl rfl

theorem setPc (hs : s.Inv) (t : Word) : (s.setPc t).Inv := hs.of_same_regs_flags hs.memory rfl rfl rfl rfl

theorem advance (hs : s.Inv) : s.advance.Inv := hs.setPc s.pc1

theorem halt (hs : s.Inv) : s.halt.Inv := hs.of_same_regs_flags hs.memory rfl rfl rfl rfl

theorem deliver (hs : s.Inv) (dr : RegNum) (r : Word) : (s.deliver dr r).Inv :=
  ((hs.writeReg dr r).setCC r).advance

end State.Inv

/-- Every instruction keeps the invariant: each one is made of updates that do. -/
theorem exec_keeps_inv {i : Instr} {s t : State} (hs : s.Inv) (h : exec i s = .next t) : t.Inv := by
  cases i with
  | add dr sr1 sr2 => cases h; exact hs.deliver dr _
  | addi dr sr1 imm => cases h; exact hs.deliver dr _
  | nand dr sr1 sr2 => cases h; exact hs.deliver dr _
  | br n z p off => cases h; exact hs.setPc _
  | jalr ra tgt => cases h; exact (hs.writeReg ra _).setPc _
  | ldr dr baseR off => cases h; exact hs.deliver dr _
  | lea dr off => cases h; exact hs.deliver dr _
  | str sr baseR off => cases h; exact (hs.memWrite _ _).advance
  | shf dr sr1 arith right dist => cases h; exact hs.deliver dr _
  | halt => cases h; exact hs.halt

/-- Settles O38: a step that answers a next state is the `exec` of one instruction. -/
theorem everyStepKeepsInv : Obligations.EveryStepKeepsInv := by
  intro s t hs h
  obtain ⟨-, i, -, hexec⟩ := step_next_inv h
  exact exec_keeps_inv hs hexec

end Sys2Proof.Machine
end

section
/-! PROOFS. The statements of 10_state.md: which registers an instruction writes and reads (R27, R32), its next pc
(R35), its flags (R38, R39), and halting (R42). -/

namespace Sys2Proof.Machine

/-! ### What an instruction can do, said once -/

/-- How each kind of instruction makes its next state: the six of R39 deliver a result to their destination, the other
four each have an effect of their own. Which result, target, address and value these are is left open here: the claims
about what stays as it was do not need it. -/
inductive InstrEffect : Instr → State → State → Prop
  | deliver {i : Instr} {s : State} {dr : RegNum} (r : Word) (hflags : setsFlags i = true)
      (hdest : destination i = some dr) : InstrEffect i s (s.deliver dr r)
  | br {n z p : Bool} {off : Field20} {s : State} (target : Word) : InstrEffect (.br n z p off) s (s.setPc target)
  | jalr {ra tgt : RegNum} {s : State} (target : Word) :
      InstrEffect (.jalr ra tgt) s ((s.writeReg ra s.pc1).setPc target)
  | str {sr baseR : RegNum} {off : Field20} {s : State} (addr v : Word) :
      InstrEffect (.str sr baseR off) s (s.memWrite addr v).advance
  | halt {s : State} : InstrEffect .halt s s.halt

/-- What `exec` answers is the effect of the instruction's kind. -/
theorem exec_effect {i : Instr} {s t : State} (h : exec i s = .next t) : InstrEffect i s t := by
  cases i with
  | add dr sr1 sr2 => cases h; exact .deliver _ rfl rfl
  | addi dr sr1 imm => cases h; exact .deliver _ rfl rfl
  | nand dr sr1 sr2 => cases h; exact .deliver _ rfl rfl
  | br n z p off => cases h; exact .br _
  | jalr ra tgt => cases h; exact .jalr _
  | ldr dr baseR off => cases h; exact .deliver _ rfl rfl
  | lea dr off => cases h; exact .deliver _ rfl rfl
  | str sr baseR off => cases h; exact .str _ _
  | shf dr sr1 arith right dist => cases h; exact .deliver _ rfl rfl
  | halt => cases h; exact .halt

/-! ### The destination register (R27, R32) -/

/-- The register written reads as the value written, register 0 as 0 (R27), whatever the state was. -/
theorem State.readReg_writeReg_self (s : State) (r : RegNum) (v : Word) :
    (s.writeReg r v).readReg r = if r = 0#4 then 0#32 else v := by
  by_cases hr : r = 0#4 <;> simp [readReg_writeReg, hr]

/-- A register write leaves every other register, and register 0, as it was (R27). -/
theorem State.writeReg_leaves (s : State) {r q : RegNum} (v : Word) (hq : some r ≠ some q ∨ q = 0#4) :
    (s.writeReg r v).readReg q = s.readReg q ∧ (s.writeReg r v).regReady q = s.regReady q := by
  rcases hq with hne | rfl
  · have hqr : q ≠ r := fun h => hne (congrArg some h.symm)
    simp [readReg_writeReg, regReady_writeReg, hqr]
  · simp

/-- Settles O20: the only register write of an instruction is the one to its destination. -/
theorem onlyTheDestinationRegisterChanges : Obligations.OnlyTheDestinationRegisterChanges := by
  intro i s t h q hq
  cases exec_effect h with
  | deliver r _ hdest => exact s.writeReg_leaves r (hdest ▸ hq)
  | br => exact ⟨rfl, rfl⟩
  | jalr => exact s.writeReg_leaves s.pc1 hq
  | str => exact ⟨rfl, rfl⟩
  | halt => exact ⟨rfl, rfl⟩

/-! ### The source registers (R32) -/

/-- Two states that an instruction reading only the registers `rs` cannot tell apart. -/
structure State.agreesOn (s s' : State) (rs : List RegNum) : Prop where
  readReg : ∀ q ∈ rs, s'.readReg q = s.readReg q
  pc : s'.pc = s.pc
  flags : s'.flags = s.flags
  mem : s'.mem = s.mem
  halted : s'.halted = s.halted

/-- Two results that agree on the flags, the memory, the destination `dest` and, unless the machine has halted, the pc
(R151, log 16). -/
structure State.sameResult (t t' : State) (dest : Option RegNum) : Prop where
  halted : t'.halted = t.halted
  pc : t.halted = false → t'.pc = t.pc
  flags : t'.flags = t.flags
  mem : t'.mem = t.mem
  readReg : ∀ d, dest = some d → t'.readReg d = t.readReg d

namespace State.agreesOn

variable {s s' : State} {rs : List RegNum}

theorem pc1_eq (h : s.agreesOn s' rs) : s'.pc1 = s.pc1 := congrArg (· + 1#32) h.pc

theorem pcRelative_eq (h : s.agreesOn s' rs) (off : Field20) : s'.pcRelative off = s.pcRelative off :=
  congrArg (· + sext20 off) h.pc1_eq

theorem baseAddress_eq (h : s.agreesOn s' rs) {baseR : RegNum} (hb : baseR ∈ rs) (off : Field20) :
    s'.baseAddress baseR off = s.baseAddress baseR off :=
  congrArg (· + sext20 off) (h.readReg baseR hb)

/-- The same result delivered to the same register. -/
theorem deliver (h : s.agreesOn s' rs) (dr : RegNum) {r r' : Word} (hr : r' = r) :
    (s.deliver dr r).sameResult (s'.deliver dr r') (some dr) where
  halted := by simpa using h.halted
  pc := fun _ => by simp [h.pc]
  flags := by simp [hr]
  mem := by simpa using h.mem
  readReg := fun d hd => by
    cases hd
    simp only [readReg_deliver, readReg_writeReg_self, hr]

/-- A jump to the same target. -/
theorem setPc (h : s.agreesOn s' rs) {target target' : Word} (ht : target' = target) :
    (s.setPc target).sameResult (s'.setPc target') none :=
  ⟨h.halted, fun _ => ht, h.flags, h.mem, nofun⟩

/-- AT reads alike after RA is written in both states, also with RA = AT (D20, log 15). -/
theorem readReg_link (h : s.agreesOn s' rs) (ra : RegNum) {tgt : RegNum} (ht : tgt ∈ rs) :
    (s'.writeReg ra s'.pc1).readReg tgt = (s.writeReg ra s.pc1).readReg tgt := by
  simp only [readReg_writeReg, h.pc1_eq, h.readReg tgt ht]

/-- The same link and a jump to the same target. -/
theorem link_setPc (h : s.agreesOn s' rs) (ra : RegNum) {target target' : Word} (ht : target' = target) :
    ((s.writeReg ra s.pc1).setPc target).sameResult ((s'.writeReg ra s'.pc1).setPc target') (some ra) where
  halted := by simpa using h.halted
  pc := fun _ => ht
  flags := by simpa using h.flags
  mem := by simpa using h.mem
  readReg := fun d hd => by
    cases hd
    simp only [readReg_setPc, readReg_writeReg_self, h.pc1_eq]

/-- The same word stored at the same address. -/
theorem store (h : s.agreesOn s' rs) {addr addr' v v' : Word} (ha : addr' = addr) (hv : v' = v) :
    (s.memWrite addr v).advance.sameResult (s'.memWrite addr' v').advance none where
  halted := h.halted
  pc := fun _ => by simp [h.pc]
  flags := h.flags
  mem := by simp [ha, hv, h.mem]
  readReg := nofun

/-- A halt leaves flags and memory; of the pc nothing is said (R151). -/
theorem halt (h : s.agreesOn s' rs) : s.halt.sameResult s'.halt none :=
  ⟨rfl, nofun, h.flags, h.mem, nofun⟩

end State.agreesOn

/-- Each instruction computes its result, its target and its store from its sources, the pc, the flags and the memory
alone. -/
theorem exec_sameResult {i : Instr} {s s' : State} (h : s.agreesOn s' (sources i)) :
    ∃ t t', exec i s = .next t ∧ exec i s' = .next t' ∧ t.sameResult t' (destination i) := by
  cases i with
  | add dr sr1 sr2 =>
    have h1 := h.readReg sr1 (by simp [sources])
    have h2 := h.readReg sr2 (by simp [sources])
    exact ⟨_, _, rfl, rfl, h.deliver dr (by rw [h1, h2])⟩
  | addi dr sr1 imm =>
    have h1 := h.readReg sr1 (by simp [sources])
    exact ⟨_, _, rfl, rfl, h.deliver dr (by rw [h1])⟩
  | nand dr sr1 sr2 =>
    have h1 := h.readReg sr1 (by simp [sources])
    have h2 := h.readReg sr2 (by simp [sources])
    exact ⟨_, _, rfl, rfl, h.deliver dr (by rw [h1, h2])⟩
  | br n z p off => exact ⟨_, _, rfl, rfl, h.setPc (by rw [h.flags, h.pcRelative_eq, h.pc1_eq])⟩
  | jalr ra tgt => exact ⟨_, _, rfl, rfl, h.link_setPc ra (h.readReg_link ra (by simp [sources]))⟩
  | ldr dr baseR off =>
    have haddr := h.baseAddress_eq (baseR := baseR) (by simp [sources]) off
    exact ⟨_, _, rfl, rfl, h.deliver dr (by rw [haddr, State.memRead_congr h.mem])⟩
  | lea dr off => exact ⟨_, _, rfl, rfl, h.deliver dr (h.pcRelative_eq off)⟩
  | str sr baseR off =>
    have haddr := h.baseAddress_eq (baseR := baseR) (by simp [sources]) off
    exact ⟨_, _, rfl, rfl, h.store haddr (h.readReg sr (by simp [sources]))⟩
  | shf dr sr1 arith right dist =>
    have h1 := h.readReg sr1 (by simp [sources])
    exact ⟨_, _, rfl, rfl, h.deliver dr (by rw [h1])⟩
  | halt => exact ⟨_, _, rfl, rfl, h.halt⟩

/-- Settles O21. -/
theorem onlyTheSourceRegistersMatter : Obligations.OnlyTheSourceRegistersMatter := by
  intro i s s' hregs hpc hflags hmem hhalted
  obtain ⟨t, t', ht, ht', hsame⟩ := exec_sameResult ⟨hregs, hpc, hflags, hmem, hhalted⟩
  exact ⟨t, t', ht, ht', hsame.halted, hsame.pc, hsame.flags, hsame.mem, hsame.readReg⟩

/-! ### The next pc (R35) -/

/-- JALR jumps to what AT reads once RA holds the incremented PC: with RA = AT that is the incremented PC itself, unless
the register is register 0 (D20, log 15). -/
theorem State.readReg_after_link (s : State) (ra tgt : RegNum) :
    (s.writeReg ra s.pc1).readReg tgt = if tgt = ra ∧ ra ≠ 0#4 then s.pc + 1#32 else s.readReg tgt :=
  s.readReg_writeReg ra tgt s.pc1

/-- Settles O22, row by row of the table of R35. -/
theorem nextPcTable : Obligations.NextPcTable := by
  intro i s t h
  cases i with
  | add dr sr1 sr2 => cases h; exact s.deliver_pc ..
  | addi dr sr1 imm => cases h; exact s.deliver_pc ..
  | nand dr sr1 sr2 => cases h; exact s.deliver_pc ..
  | br n z p off => cases h; rfl
  | jalr ra tgt => cases h; exact s.readReg_after_link ra tgt
  | ldr dr baseR off => cases h; exact s.deliver_pc ..
  | lea dr off => cases h; exact s.deliver_pc ..
  | str sr baseR off => cases h; rfl
  | shf dr sr1 arith right dist => cases h; exact s.deliver_pc ..
  | halt => trivial

/-! ### The flags (R38, R39) -/

/-- Settles O23: delivering a result sets the flags from it, and no other effect touches them. -/
theorem flagsAreWrittenByExactlySix : Obligations.FlagsAreWrittenByExactlySix := by
  intro i s t h
  cases exec_effect h with
  | deliver r hflags => exact ⟨fun _ => ⟨rfl, Flags.oneHot_ofValue r⟩, fun hnot => by simp [hflags] at hnot⟩
  | br => exact ⟨nofun, fun _ => ⟨rfl, rfl⟩⟩
  | jalr => exact ⟨nofun, fun _ => ⟨by simp, by simp⟩⟩
  | str => exact ⟨nofun, fun _ => ⟨rfl, rfl⟩⟩
  | halt => exact ⟨nofun, fun _ => ⟨rfl, rfl⟩⟩

/-! ### Halting (R42, R150) -/

/-- Run on a machine that is not halted, HALT halts it and no other instruction does. -/
theorem exec_halted_iff {i : Instr} {s t : State} (hrun : s.halted = false) (h : exec i s = .next t) :
    t.halted = true ↔ i = .halt := by
  cases exec_effect h with
  | deliver _ hflags =>
    have hne : i ≠ .halt := by rintro rfl; cases hflags
    simp [hrun, hne]
  | br => simp [hrun]
  | jalr => simp [hrun]
  | str => simp [hrun]
  | halt => simp

/-- Settles O25: the step runs the one instruction the fetched word decodes to. -/
theorem onlyHaltHalts : Obligations.OnlyHaltHalts := by
  intro s t h
  obtain ⟨hrun, i, hdec, hexec⟩ := step_next_inv h
  refine ⟨hrun, ?_⟩
  rw [exec_halted_iff hrun hexec, hdec, Except.ok.injEq]

end Sys2Proof.Machine
end

section
/-! PROOFS. The statements of 20_memory.md: which word an address names (R51, R55), what a step does to the memory (R54,
R58, R59), and what later loads and fetches see of a store (R62, R63). -/

namespace Sys2Proof.Machine

/-! ### The word an address names (R51, R55) -/

/-- Two addresses are equal modulo 2^24 exactly when they have the same key (R51). -/
theorem sameWord_iff (a b : Word) : sameWord a b ↔ wordCell a = wordCell b := by
  rw [sameWord, wordCell_eq, wordCell_eq]

/-- A read looks at nothing of the address but its key. -/
theorem State.memRead_eq_of_sameWord (s : State) {a b : Word} (h : sameWord a b) : s.memRead a = s.memRead b :=
  congrArg s.wordAt ((sameWord_iff a b).mp h)

/-- A write looks at nothing of the address but its key. -/
theorem State.memWrite_eq_of_sameWord (s : State) {a b : Word} (v : Word) (h : sameWord a b) :
    s.memWrite a v = s.memWrite b v := by
  rw [memWrite, memWrite, writeWord, writeWord, (sameWord_iff a b).mp h]

/-- The fetch reads the word the pc names (R36). -/
@[simp] theorem State.fetch_setPc (s : State) (a : Word) : (s.setPc a).fetch = s.memRead a := rfl

/-- Settles O31. -/
theorem addressesAliasModulo2Pow24 : Obligations.AddressesAliasModulo2Pow24 := by
  intro a b
  refine ⟨(sameWord_iff a b).symm, fun h s v => ⟨s.memRead_eq_of_sameWord h, s.memWrite_eq_of_sameWord v h, ?_⟩⟩
  rw [s.fetch_setPc, s.fetch_setPc, s.memRead_eq_of_sameWord h]

/-- Sign extension keeps the signed value, so as an unsigned number the word is that value modulo 2^32. -/
theorem toNat_sext20 (off : Field20) : ((sext20 off).toNat : Int) = off.toInt % 2 ^ 32 := by
  have hlt : (sext20 off).toNat < 2 ^ 32 := (sext20 off).isLt
  rw [← toInt_sext20, BitVec.toInt_eq_toNat_cond]
  split <;> omega

/-- Settles O32: 2^24 divides 2^32, so the sum modulo 2^32 leaves the sum modulo 2^24. -/
theorem effectiveAddressWrapsAt24Bits : Obligations.EffectiveAddressWrapsAt24Bits := by
  refine ⟨fun s baseR off => ?_, fun s => ?_⟩
  · have hoff := toNat_sext20 off
    have hcell : (wordAddress (s.baseAddress baseR off)).toNat =
        ((s.readReg baseR).toNat + (sext20 off).toNat) % 2 ^ 32 % 2 ^ 24 := by
      rw [← BitVec.toNat_add]
      exact wordCell_eq _
    omega
  · rw [State.baseAddress, s.readReg_zero]
    decide

/-! ### What a step does to the memory (R54, R58, R59) -/

/-- What a STR does: one word stored, and the pc advanced (R132). -/
theorem exec_str (sr baseR : RegNum) (off : Field20) (s : State) :
    exec (.str sr baseR off) s = .next (s.memWrite (s.baseAddress baseR off) (s.readReg sr)).advance := rfl

/-- A store changes no word but the one its address names (R54). -/
theorem State.sameCell_memWrite (s : State) {addr : Word} {a : Nat} (v : Word) (ha : a ≠ wordCell addr) :
    s.sameCell (s.memWrite addr v) a := by
  simp [sameCell, wordAt_memWrite, readCell_writeWord, ha]

/-- A STR changes no word but the one at base plus offset, and no other instruction changes any. -/
theorem exec_sameCell_or_store {i : Instr} {s t : State} (h : exec i s = .next t) (a : Nat) :
    s.sameCell t a ∨ ∃ sr baseR off, i = .str sr baseR off ∧ a = wordCell (s.baseAddress baseR off) := by
  cases exec_effect h with
  | deliver => exact .inl (State.sameMemory_of_eq (s.deliver_mem ..) a)
  | br => exact .inl (State.sameMemory_of_eq rfl a)
  | jalr => exact .inl (State.sameMemory_of_eq (s.writeReg_mem ..) a)
  | @str sr baseR off =>
    by_cases ha : a = wordCell (s.baseAddress baseR off)
    · exact .inr ⟨sr, baseR, off, rfl, ha⟩
    · rw [exec_str] at h
      rw [← Host.Outcome.next.inj h]
      exact .inl (s.sameCell_memWrite _ ha)
  | halt => exact .inl (State.sameMemory_of_eq rfl a)

/-- A step changes no word but the one stored to by the STR it fetches, if it fetches one. -/
theorem step_sameCell_or_store {s t : State} (h : step s = .next t) (a : Nat) :
    s.sameCell t a ∨
      ∃ sr baseR off, decode s.fetch = .ok (.str sr baseR off) ∧ a = wordCell (s.baseAddress baseR off) := by
  obtain ⟨-, i, hdec, hexec⟩ := step_next_inv h
  rcases exec_sameCell_or_store hexec a with hsame | ⟨sr, baseR, off, rfl, ha⟩
  · exact .inl hsame
  · exact .inr ⟨sr, baseR, off, hdec, ha⟩

/-- Settles O26. -/
theorem onlyAStoreChangesMemory : Obligations.OnlyAStoreChangesMemory :=
  fun _ _ h a hchanged => (step_sameCell_or_store h a).resolve_left hchanged

/-! ### What later loads and fetches see of a store (R62, R63) -/

/-- The STR at the pc stores to the words its base plus offset names. -/
theorem State.storesTo_of_decode {s : State} {sr baseR : RegNum} {off : Field20} (a : Word)
    (hdec : decode s.fetch = .ok (.str sr baseR off)) :
    s.storesTo a = decide (sameWord (s.baseAddress baseR off) a) := by
  simp [storesTo, storeAddress, hdec]

/-- A step that does not store to a word leaves what a read of it gives. -/
theorem step_memRead_of_not_storesTo {s t : State} {a : Word} (h : step s = .next t) (hno : s.storesTo a = false) :
    t.memRead a = s.memRead a := by
  rcases step_sameCell_or_store h (wordCell a) with ⟨hword, -⟩ | ⟨sr, baseR, off, hdec, ha⟩
  · exact hword
  · rw [State.storesTo_of_decode a hdec, decide_eq_false_iff_not, sameWord_iff] at hno
    exact absurd ha.symm hno

/-- No store in `k + 1` steps: none in the first, and none in the `k` that follow. -/
theorem State.noStoreFor_succ {s t : State} (a : Word) (k : Nat) (h : step s = .next t) :
    State.noStoreFor a (k + 1) s = true ↔ s.storesTo a = false ∧ State.noStoreFor a k t = true := by
  simp [noStoreFor, h]

/-- A run none of whose steps stores to a word leaves what a read of it gives. -/
theorem run_memRead_of_noStoreFor {a : Word} {k : Nat} {s t : State} (hno : State.noStoreFor a k s = true)
    (hrun : Sys2Proof.core.run k s = .next t) : t.memRead a = s.memRead a := by
  induction k generalizing s with
  | zero => cases hrun; rfl
  | succ k ih =>
    obtain ⟨u, hstep, hrest⟩ := run_succ_inv hrun
    obtain ⟨hfirst, hlater⟩ := (State.noStoreFor_succ a k hstep).mp hno
    rw [ih hlater hrest, step_memRead_of_not_storesTo hstep hfirst]

/-- A store is seen by every read of the word it names (R54). -/
theorem State.memRead_memWrite_of_sameWord (s : State) {addr b : Word} (v : Word) (h : sameWord b addr) :
    (s.memWrite addr v).memRead b = v := by
  rw [memRead_memWrite, if_pos ((sameWord_iff b addr).mp h)]

/-- Settles O33: the STR puts the word there, the run keeps it, and an LDR delivers what a read gives. -/
theorem loadSeesMostRecentStore : Obligations.LoadSeesMostRecentStore := by
  intro sr baseR off s s1 t k b hstr hno hrun hb
  rw [exec_str] at hstr
  cases hstr
  have hread : t.memRead b = s.readReg sr := by
    calc t.memRead b
      _ = t.memRead (s.baseAddress baseR off) := t.memRead_eq_of_sameWord hb
      _ = (s.memWrite (s.baseAddress baseR off) (s.readReg sr)).advance.memRead (s.baseAddress baseR off) :=
        run_memRead_of_noStoreFor hno hrun
      _ = s.readReg sr := s.memRead_memWrite_of_sameWord (s.readReg sr) rfl
  refine ⟨hread, fun dr base2 off2 _ haddr => ⟨t.deliver dr (s.readReg sr), ?_, t.deliver_delivered dr _⟩⟩
  rw [← hread, ← haddr]
  rfl

/-- Settles O34: the next fetch reads at the incremented PC, which names the word just stored to (D9, log 12). -/
theorem storedInstructionIsExecutedNext : Obligations.StoredInstructionIsExecutedNext := by
  intro s t sr baseR off i hrun hdec hnext hstored hstep
  rw [step_of_decode hrun hdec, exec_str] at hstep
  cases hstep
  have hfetch : (s.memWrite (s.baseAddress baseR off) (s.readReg sr)).advance.fetch = s.readReg sr :=
    s.memRead_memWrite_of_sameWord (s.readReg sr) hnext
  exact step_of_decode hrun (by rw [hfetch, hstored])

end Sys2Proof.Machine
end

section
/-! PROOFS. The statements of 30_encoding.md: which words decode and to what (R90 to R94), the round trips between words
and instructions (R76 to R86, R105), the bits of the mnemonics (R100, R101), and what the assembler reaches (R95, R99 to
R103). -/

namespace Sys2Proof.Machine

/-! ### The decoder, said once (R90 to R94) -/

/-- The verdict on a word, a case for each row of the opcode table (R91) and for each kind of word without a meaning. -/
inductive DecodesTo (w : Word) : Except Reject Instr → Prop
  | add (hop : fieldOp w = 0b0000#4) : DecodesTo w (.ok (.add (fieldRX w) (fieldRY w) (fieldRZ w)))
  | addi (hop : fieldOp w = 0b0001#4) : DecodesTo w (.ok (.addi (fieldRX w) (fieldRY w) (field20 w)))
  | nand (hop : fieldOp w = 0b0010#4) : DecodesTo w (.ok (.nand (fieldRX w) (fieldRY w) (fieldRZ w)))
  | br (hop : fieldOp w = 0b0011#4) (hzeros : fieldBrZeros w = 0#5) :
      DecodesTo w (.ok (.br (fieldN w) (fieldZ w) (fieldP w) (field20 w)))
  | jalr (hop : fieldOp w = 0b0100#4) : DecodesTo w (.ok (.jalr (fieldRX w) (fieldRY w)))
  | ldr (hop : fieldOp w = 0b0101#4) : DecodesTo w (.ok (.ldr (fieldRX w) (fieldRY w) (field20 w)))
  | lea (hop : fieldOp w = 0b0110#4) : DecodesTo w (.ok (.lea (fieldRX w) (field20 w)))
  | str (hop : fieldOp w = 0b0111#4) : DecodesTo w (.ok (.str (fieldRX w) (fieldRY w) (field20 w)))
  | shf (hop : fieldOp w = 0b1000#4) :
      DecodesTo w
        (.ok (.shf (fieldRX w) (fieldRY w) (shiftA (field20 w)) (shiftD (field20 w)) (shiftDist (field20 w))))
  | halt (hop : fieldOp w = 0b1111#4) : DecodesTo w (.ok .halt)
  | undefinedOpcode (hlow : 9 ≤ (fieldOp w).toNat) (hhigh : (fieldOp w).toNat ≤ 14) :
      DecodesTo w (.error .undefinedOpcode)
  | reservedBrBits (hop : fieldOp w = 0b0011#4) (hzeros : fieldBrZeros w ≠ 0#5) :
      DecodesTo w (.error .reservedBrBits)

/-- The verdict `decode` gives is the one of the word's case. -/
theorem decodesTo_decode (w : Word) : DecodesTo w (decode w) := by
  have hop {op : Opcode} (h : (fieldOp w).toNat = op.toNat) : fieldOp w = op := BitVec.eq_of_toNat_eq h
  unfold decode
  split
  · next h => exact .add (hop h)
  · next h => exact .addi (hop h)
  · next h => exact .nand (hop h)
  · next h =>
    split
    · next hzeros => exact .br (hop h) hzeros
    · next hzeros => exact .reservedBrBits (hop h) hzeros
  · next h => exact .jalr (hop h)
  · next h => exact .ldr (hop h)
  · next h => exact .lea (hop h)
  · next h => exact .str (hop h)
  · next h => exact .shf (hop h)
  · next h => exact .halt (hop h)
  · have hlt : (fieldOp w).toNat < 16 := (fieldOp w).isLt
    exact .undefinedOpcode (by grind) (by grind)

/-- Whatever the case of a word says, `decode` answers. -/
theorem DecodesTo.decode_eq {w : Word} {r : Except Reject Instr} (h : DecodesTo w r) : decode w = r := by
  cases h with
  | add hop => simp [decode, hop]
  | addi hop => simp [decode, hop]
  | nand hop => simp [decode, hop]
  | br hop hzeros => simp [decode, hop, hzeros]
  | jalr hop => simp [decode, hop]
  | ldr hop => simp [decode, hop]
  | lea hop => simp [decode, hop]
  | str hop => simp [decode, hop]
  | shf hop => simp [decode, hop]
  | halt hop => simp [decode, hop]
  | undefinedOpcode hlow hhigh =>
    have hop : (fieldOp w).toNat ∈ [9, 10, 11, 12, 13, 14] := by simp; omega
    simp only [List.mem_cons, List.not_mem_nil, or_false] at hop
    rcases hop with hop | hop | hop | hop | hop | hop <;> simp [decode, hop]
  | reservedBrBits hop hzeros => simp [decode, hop, hzeros]

/-- The cases are exactly what `decode` answers. -/
theorem decode_eq_iff {w : Word} {r : Except Reject Instr} : decode w = r ↔ DecodesTo w r :=
  ⟨fun h => h ▸ decodesTo_decode w, DecodesTo.decode_eq⟩

/-- A word is rejected for its opcode exactly when that is one of 1001 to 1110 (R92, D3: log 8). -/
theorem decode_eq_undefinedOpcode_iff {w : Word} :
    decode w = .error .undefinedOpcode ↔ 9 ≤ (fieldOp w).toNat ∧ (fieldOp w).toNat ≤ 14 := by
  rw [decode_eq_iff]
  constructor
  · rintro ⟨⟩
    exact ⟨‹_›, ‹_›⟩
  · rintro ⟨hlow, hhigh⟩
    exact .undefinedOpcode hlow hhigh

/-- A word is rejected for reserved bits exactly when it is a BR with a 1 among them (R94, D5: log 10). -/
theorem decode_eq_reservedBrBits_iff {w : Word} :
    decode w = .error .reservedBrBits ↔ fieldOp w = 0b0011#4 ∧ fieldBrZeros w ≠ 0#5 := by
  rw [decode_eq_iff]
  constructor
  · rintro ⟨⟩
    exact ⟨‹_›, ‹_›⟩
  · rintro ⟨hop, hzeros⟩
    exact .reservedBrBits hop hzeros

/-! ### Words that are refused (R92, R94) -/

/-- The name under which `step` refuses a word that has no meaning. -/
def refusalOf : Reject → Refusal
  | .undefinedOpcode => .undefinedOpcode
  | .reservedBrBits => .reservedBrBits

theorem refusalOf_injective : Function.Injective refusalOf := by
  intro r r' h
  cases r <;> cases r' <;> trivial

/-- The step of a running machine whose word does not decode. -/
theorem step_of_reject {s : State} {r : Reject} (hrun : s.halted = false) (hdec : decode s.fetch = .error r) :
    step s = .refused (refusalOf r) := by
  cases r <;> simp [step, refusalOf, hrun, hdec]

/-- A step is refused for the reason the word at the pc does not decode, and for no other: instructions complete. -/
theorem step_refused_iff {s : State} (r : Reject) :
    step s = .refused (refusalOf r) ↔ s.halted = false ∧ decode s.fetch = .error r := by
  refine ⟨fun h => ?_, fun ⟨hrun, hdec⟩ => step_of_reject hrun hdec⟩
  cases hhalted : s.halted with
  | true =>
    rw [step_of_halted hhalted] at h
    cases h
  | false =>
    refine ⟨rfl, ?_⟩
    cases hdec : decode s.fetch with
    | ok i =>
      obtain ⟨t, ht⟩ := exec_completes i s
      rw [step_of_decode hhalted hdec, ht] at h
      cases h
    | error r' =>
      rw [step_of_reject hhalted hdec] at h
      rw [refusalOf_injective (Host.Outcome.refused.inj h)]

/-- Settles O13. -/
theorem undefinedOpcodesAreRefused : Obligations.UndefinedOpcodesAreRefused :=
  fun _ => (step_refused_iff .undefinedOpcode).trans (and_congr_right' decode_eq_undefinedOpcode_iff)

/-- Settles O14. -/
theorem reservedBrBitsAreRefused : Obligations.ReservedBrBitsAreRefused :=
  fun _ => (step_refused_iff .reservedBrBits).trans (and_congr_right' decode_eq_reservedBrBits_iff)

/-! ### Words taken apart (R76 to R86) -/

/-- Two bit strings side by side are a field of a word exactly when each is the part of the field it stands in. -/
theorem append_eq_field_iff {m n lo : Nat} {a : BitVec m} {b : BitVec n} {w : Word} :
    a ++ b = w.extractLsb' lo (m + n) ↔ a = w.extractLsb' (lo + n) m ∧ b = w.extractLsb' lo n := by
  rw [← BitVec.extractLsb'_append_extractLsb'_eq_extractLsb' rfl]
  refine ⟨fun h => ?_, fun ⟨hleft, hright⟩ => by rw [hleft, hright]⟩
  have hleft := congrArg (BitVec.extractLsb' n m) h
  have hright := congrArg (BitVec.extractLsb' 0 n) h
  simp only [BitVec.extractLsb'_append_eq_left, BitVec.extractLsb'_append_eq_right] at hleft hright
  exact ⟨hleft, hright⟩

/-- A field of one bit is that bit. -/
theorem ofBool_eq_field_iff {b : Bool} {lo : Nat} {w : Word} :
    BitVec.ofBool b = w.extractLsb' lo 1 ↔ b = w.getLsbD lo := by
  have hbit : w.extractLsb' lo 1 = BitVec.ofBool (w.getLsbD lo) := by
    refine field_eq fun i hi => ?_
    obtain rfl : i = 0 := by omega
    simp
  rw [hbit, BitVec.ofBool_eq_iff_eq]

/-- A mask that is 1 in a field keeps the field. -/
theorem field_and_ones {n lo : Nat} {mask : Word} (w : Word) (h : mask.extractLsb' lo n = BitVec.allOnes n) :
    (w &&& mask).extractLsb' lo n = w.extractLsb' lo n := by
  rw [BitVec.extractLsb'_and, h, BitVec.and_allOnes]

/-- A mask that is 0 in a field clears the field. -/
theorem field_and_zeros {n lo : Nat} {mask : Word} (w : Word) (h : mask.extractLsb' lo n = 0#n) :
    (w &&& mask).extractLsb' lo n = 0#n := by
  rw [BitVec.extractLsb'_and, h, BitVec.and_zero]

/-! ### The word of each form, and the words that agree with it on the used bits (R79 to R86, R93) -/

section Forms

variable {op : Opcode} {rx ry rz : RegNum} {imm : Field20} {n z p arith right : Bool} {dist : Dist5} {w : Word}

theorem formR_eq_and_iff : formR op rx ry rz = w &&& 0xFFF0000F#32 ↔
    op = fieldOp w ∧ rx = fieldRX w ∧ ry = fieldRY w ∧ rz = fieldRZ w := by
  rw [formR, ← BitVec.extractLsb'_eq_self (x := w &&& _), append_eq_field_iff, append_eq_field_iff,
    append_eq_field_iff, append_eq_field_iff]
  simp (disch := decide) only [field_and_ones, field_and_zeros, and_assoc, true_and]
  rfl

theorem formI_eq_and_iff : formI op rx ry imm = w &&& 0xFFFFFFFF#32 ↔
    op = fieldOp w ∧ rx = fieldRX w ∧ ry = fieldRY w ∧ imm = field20 w := by
  rw [formI, ← BitVec.extractLsb'_eq_self (x := w &&& _), append_eq_field_iff, append_eq_field_iff,
    append_eq_field_iff]
  simp (disch := decide) only [field_and_ones, and_assoc]
  rfl

theorem formB_eq_and_iff : formB op n z p imm = w &&& 0xFFFFFFFF#32 ↔
    op = fieldOp w ∧ 0#5 = fieldBrZeros w ∧ n = fieldN w ∧ z = fieldZ w ∧ p = fieldP w ∧ imm = field20 w := by
  rw [formB, ← BitVec.extractLsb'_eq_self (x := w &&& _), append_eq_field_iff, append_eq_field_iff,
    append_eq_field_iff, append_eq_field_iff, append_eq_field_iff]
  simp (disch := decide) only [field_and_ones, ofBool_eq_field_iff, and_assoc]
  rfl

theorem formJ_eq_and_iff : formJ op rx ry = w &&& 0xFFF00000#32 ↔
    op = fieldOp w ∧ rx = fieldRX w ∧ ry = fieldRY w := by
  rw [formJ, ← BitVec.extractLsb'_eq_self (x := w &&& _), append_eq_field_iff, append_eq_field_iff,
    append_eq_field_iff]
  simp (disch := decide) only [field_and_ones, field_and_zeros, and_assoc, and_true]
  rfl

theorem formL_eq_and_iff : formL op rx imm = w &&& 0xFF0FFFFF#32 ↔
    op = fieldOp w ∧ rx = fieldRX w ∧ imm = field20 w := by
  rw [formL, ← BitVec.extractLsb'_eq_self (x := w &&& _), append_eq_field_iff, append_eq_field_iff,
    append_eq_field_iff]
  simp (disch := decide) only [field_and_ones, field_and_zeros, and_assoc, true_and]
  rfl

theorem formH_eq_and_iff : formH op = w &&& 0xF0000000#32 ↔ op = fieldOp w := by
  rw [formH, ← BitVec.extractLsb'_eq_self (x := w &&& _), append_eq_field_iff]
  simp (disch := decide) only [field_and_ones, field_and_zeros, and_true]
  rfl

/-- The form of SHF: the I-form with a shift vector, whose thirteen middle bits are unused (R86). -/
theorem formI_shiftVector_eq_and_iff :
    formI op rx ry (shiftVector arith right dist) = w &&& 0xFFFC001F#32 ↔
      op = fieldOp w ∧ rx = fieldRX w ∧ ry = fieldRY w ∧ arith = shiftA (field20 w) ∧ right = shiftD (field20 w) ∧
        dist = shiftDist (field20 w) := by
  rw [formI, ← BitVec.extractLsb'_eq_self (x := w &&& _), append_eq_field_iff, append_eq_field_iff,
    append_eq_field_iff, shiftVector, append_eq_field_iff, append_eq_field_iff, append_eq_field_iff]
  simp (disch := decide) only [field_and_ones, field_and_zeros, ofBool_eq_field_iff, and_assoc, true_and]
  simp [shiftA, shiftD, shiftDist, field20, fieldOp, fieldRX, fieldRY]

end Forms

/-! ### The canonical word has its unused bits 0 (R93) -/

theorem formR_and_used (op : Opcode) (rx ry rz : RegNum) :
    formR op rx ry rz &&& 0xFFF0000F#32 = formR op rx ry rz := by
  have hmask : 0xFFF0000F#32 = formR (.allOnes 4) (.allOnes 4) (.allOnes 4) (.allOnes 4) := by decide
  rw [hmask, formR, formR, BitVec.and_append, BitVec.and_append, BitVec.and_append, BitVec.and_append]
  simp only [BitVec.and_allOnes, BitVec.and_self]

theorem formJ_and_used (op : Opcode) (ra tgt : RegNum) : formJ op ra tgt &&& 0xFFF00000#32 = formJ op ra tgt := by
  have hmask : 0xFFF00000#32 = formJ (.allOnes 4) (.allOnes 4) (.allOnes 4) := by decide
  rw [hmask, formJ, formJ, BitVec.and_append, BitVec.and_append, BitVec.and_append]
  simp only [BitVec.and_allOnes, BitVec.and_self]

theorem formL_and_used (op : Opcode) (dr : RegNum) (off : Field20) :
    formL op dr off &&& 0xFF0FFFFF#32 = formL op dr off := by
  have hmask : 0xFF0FFFFF#32 = formL (.allOnes 4) (.allOnes 4) (.allOnes 20) := by decide
  rw [hmask, formL, formL, BitVec.and_append, BitVec.and_append, BitVec.and_append]
  simp only [BitVec.and_allOnes, BitVec.and_self]

theorem formI_shiftVector_and_used (op : Opcode) (dr sr1 : RegNum) (arith right : Bool) (dist : Dist5) :
    formI op dr sr1 (shiftVector arith right dist) &&& 0xFFFC001F#32 =
      formI op dr sr1 (shiftVector arith right dist) := by
  have hmask : 0xFFFC001F#32 =
      formI (.allOnes 4) (.allOnes 4) (.allOnes 4) (shiftVector true true (.allOnes 5)) := by decide
  rw [hmask, formI, formI, BitVec.and_append, BitVec.and_append, BitVec.and_append, shiftVector, shiftVector,
    BitVec.and_append, BitVec.and_append, BitVec.and_append]
  simp only [BitVec.and_allOnes, BitVec.and_self, BitVec.ofBool_and_ofBool, Bool.and_true]

/-- The canonical word of an instruction has every unused bit 0 (R93). -/
theorem encode_and_usedBits (i : Instr) : encode i &&& usedBits i = encode i := by
  cases i with
  | add dr sr1 sr2 => exact formR_and_used ..
  | addi dr sr1 imm => exact BitVec.and_allOnes
  | nand dr sr1 sr2 => exact formR_and_used ..
  | br n z p off => exact BitVec.and_allOnes
  | jalr ra tgt => exact formJ_and_used ..
  | ldr dr baseR off => exact BitVec.and_allOnes
  | lea dr off => exact formL_and_used ..
  | str sr baseR off => exact BitVec.and_allOnes
  | shf dr sr1 arith right dist => exact formI_shiftVector_and_used ..
  | halt => rfl

/-! ### The round trips (R76, R90, R93) -/

/-- A word decodes to an instruction exactly when it is that instruction's canonical word on the bits the instruction
uses (R93; D4, log 9). -/
theorem decode_eq_ok_iff {w : Word} {i : Instr} : decode w = .ok i ↔ encode i = w &&& usedBits i := by
  rw [decode_eq_iff]
  constructor
  · intro h
    cases h with
    | add hop => exact formR_eq_and_iff.mpr ⟨hop.symm, rfl, rfl, rfl⟩
    | addi hop => exact formI_eq_and_iff.mpr ⟨hop.symm, rfl, rfl, rfl⟩
    | nand hop => exact formR_eq_and_iff.mpr ⟨hop.symm, rfl, rfl, rfl⟩
    | br hop hzeros => exact formB_eq_and_iff.mpr ⟨hop.symm, hzeros.symm, rfl, rfl, rfl, rfl⟩
    | jalr hop => exact formJ_eq_and_iff.mpr ⟨hop.symm, rfl, rfl⟩
    | ldr hop => exact formI_eq_and_iff.mpr ⟨hop.symm, rfl, rfl, rfl⟩
    | lea hop => exact formL_eq_and_iff.mpr ⟨hop.symm, rfl, rfl⟩
    | str hop => exact formI_eq_and_iff.mpr ⟨hop.symm, rfl, rfl, rfl⟩
    | shf hop => exact formI_shiftVector_eq_and_iff.mpr ⟨hop.symm, rfl, rfl, rfl, rfl, rfl⟩
    | halt hop => exact formH_eq_and_iff.mpr hop.symm
  · intro h
    cases i with
    | add dr sr1 sr2 =>
      obtain ⟨hop, rfl, rfl, rfl⟩ := formR_eq_and_iff.mp h
      exact .add hop.symm
    | addi dr sr1 imm =>
      obtain ⟨hop, rfl, rfl, rfl⟩ := formI_eq_and_iff.mp h
      exact .addi hop.symm
    | nand dr sr1 sr2 =>
      obtain ⟨hop, rfl, rfl, rfl⟩ := formR_eq_and_iff.mp h
      exact .nand hop.symm
    | br n z p off =>
      obtain ⟨hop, hzeros, rfl, rfl, rfl, rfl⟩ := formB_eq_and_iff.mp h
      exact .br hop.symm hzeros.symm
    | jalr ra tgt =>
      obtain ⟨hop, rfl, rfl⟩ := formJ_eq_and_iff.mp h
      exact .jalr hop.symm
    | ldr dr baseR off =>
      obtain ⟨hop, rfl, rfl, rfl⟩ := formI_eq_and_iff.mp h
      exact .ldr hop.symm
    | lea dr off =>
      obtain ⟨hop, rfl, rfl⟩ := formL_eq_and_iff.mp h
      exact .lea hop.symm
    | str sr baseR off =>
      obtain ⟨hop, rfl, rfl, rfl⟩ := formI_eq_and_iff.mp h
      exact .str hop.symm
    | shf dr sr1 arith right dist =>
      obtain ⟨hop, rfl, rfl, rfl, rfl, rfl⟩ := formI_shiftVector_eq_and_iff.mp h
      exact .shf hop.symm
    | halt => exact .halt (formH_eq_and_iff.mp h).symm

/-- Settles O16: the canonical word agrees with itself on the used bits, having no others. -/
theorem decodeOfEncode : Obligations.DecodeOfEncode :=
  fun i => decode_eq_ok_iff.mpr (encode_and_usedBits i).symm

/-- Settles O17. -/
theorem encodeOfDecodeUpToUnusedBits : Obligations.EncodeOfDecodeUpToUnusedBits :=
  fun _ _ h => decode_eq_ok_iff.mp h

/-- Settles O18: what a word decodes to depends on the used bits alone. -/
theorem unusedBitsDoNotMatter : Obligations.UnusedBitsDoNotMatter := by
  intro w w' i hdec hsame
  rw [decode_eq_ok_iff] at hdec ⊢
  rw [hdec, hsame]

/-- Settles O19: the words are computed, and decoding gives the instructions back by the round trip. -/
theorem encodedExamples : Obligations.EncodedExamples := by
  intro e he
  have hword : encode e.1 = e.2 := by
    revert e
    decide
  exact ⟨hword, hword ▸ decodeOfEncode e.1⟩

/-! ### The bits of the mnemonics (R100, R101) -/

/-- Bits 23:20 of the B-form are 0, n, z, p (R81). -/
theorem fieldRY_formB (op : Opcode) (n z p : Bool) (off : Field20) :
    fieldRY (formB op n z p off) = 0#1 ++ BitVec.ofBool n ++ BitVec.ofBool z ++ BitVec.ofBool p := by
  refine field_eq fun i hi => ?_
  simp only [formB, BitVec.getLsbD_append]
  interval_cases i <;> simp

/-- Settles O45. -/
theorem brMnemonicBits : Obligations.BrMnemonicBits :=
  fun _ _ => ⟨fieldRY_formB .., fieldRY_formB .., fieldRY_formB .., fieldRY_formB .., fieldRY_formB ..,
    fieldRY_formB .., fieldRY_formB .., fieldRY_formB ..⟩

/-- Bits 19:0 of the I-form are its 20-bit field (R80). -/
theorem field20_formI (op : Opcode) (rx ry : RegNum) (imm : Field20) : field20 (formI op rx ry imm) = imm := by
  obtain ⟨-, -, -, himm⟩ := formI_eq_and_iff.mp (BitVec.and_allOnes (x := formI op rx ry imm)).symm
  exact himm.symm

/-- Two bit strings side by side as a number. -/
theorem toNat_append_eq_add {m n : Nat} (a : BitVec m) (b : BitVec n) :
    (a ++ b).toNat = a.toNat * 2 ^ n + b.toNat := by
  rw [BitVec.toNat_append, ← Nat.shiftLeft_add_eq_or_of_lt b.isLt, Nat.shiftLeft_eq]

/-- The shift vector as a number: A weighs 2^19, D weighs 2^18, and the distance stands at the bottom (R86). -/
theorem toNat_shiftVector (arith right : Bool) (dist : Dist5) :
    (shiftVector arith right dist).toNat = arith.toNat * 0x80000 + right.toNat * 0x40000 + dist.toNat := by
  rw [shiftVector, toNat_append_eq_add, toNat_append_eq_add, toNat_append_eq_add]
  simp only [BitVec.toNat_ofBool, BitVec.toNat_ofNat]
  omega

/-- A distance in range is its own field (R86). -/
theorem toNat_distField {d : Nat} (hd : d ≤ 31) : (distField d).toNat = d :=
  Nat.mod_eq_of_lt (by omega)

/-- Settles O46. -/
theorem shfMnemonicBits : Obligations.ShfMnemonicBits := by
  intro a dr sr1 d hd
  have hbits (arith right : Bool) :
      (field20 (encode (.shf (regField dr) (regField sr1) arith right (distField d)))).toNat =
        arith.toNat * 0x80000 + right.toNat * 0x40000 + d := by
    rw [encode, field20_formI, toNat_shiftVector, toNat_distField hd]
  exact ⟨hbits false false, hbits false true, hbits true true⟩

/-! ### Assembly (R95, R99 to R103) -/

theorem assemble_eq_some_iff {a : Word} {line : Asm} {i : Instr} :
    assemble a line = some i ↔ line.wellFormed a = true ∧ line.toInstr a = i := by
  simp [assemble]

/-- Every line stands for an instruction with a spelling, namely that line (R99 to R101). -/
theorem toInstr_spellable (a : Word) (line : Asm) : (line.toInstr a).spellable = true := by
  cases line <;> rfl

/-! #### Operands: every field is the field of a number in range (R103) -/

@[simp] theorem regInRange_toNat (r : RegNum) : regInRange r.toNat = true :=
  decide_eq_true (Nat.le_of_lt_succ r.isLt)

@[simp] theorem regField_toNat (r : RegNum) : regField r.toNat = r := BitVec.eq_of_toNat_eq (Nat.mod_eq_of_lt r.isLt)

@[simp] theorem dist5InRange_toNat (d : Dist5) : dist5InRange d.toNat = true :=
  decide_eq_true (Nat.le_of_lt_succ d.isLt)

@[simp] theorem distField_toNat (d : Dist5) : distField d.toNat = d := BitVec.eq_of_toNat_eq (Nat.mod_eq_of_lt d.isLt)

theorem field20InRange_iff {v : Int} : field20InRange v = true ↔ -524288 ≤ v ∧ v ≤ 524287 := by
  simp [field20InRange]

@[simp] theorem field20InRange_toInt (v : Field20) : field20InRange v.toInt = true := by
  obtain ⟨-, -, hrange⟩ := signExtensionOfFields v
  exact field20InRange_iff.mpr hrange

@[simp] theorem immField_toInt (v : Field20) : immField v.toInt = v := BitVec.ofInt_toInt

/-- A number in range is the signed value of its field (R103). -/
theorem toInt_immField {v : Int} (h : field20InRange v = true) : (immField v).toInt = v := by
  obtain ⟨hlow, hhigh⟩ := field20InRange_iff.mp h
  exact BitVec.toInt_ofInt_eq_self (by decide) (by omega) (by omega)

/-! #### Labels (R102) -/

/-- At a label in reach, the pc-relative address with the label's offset is the label. -/
theorem State.pcRelative_labelField {s : State} {label : Word} (h : labelInReach s.pc label = true) :
    s.pcRelative (labelField s.pc label) = label := by
  have hoff : ((sext20 (labelField s.pc label)).toNat : Int) = labelDistance s.pc label % 2 ^ 32 := by
    rw [toNat_sext20, labelField, toInt_immField h]
  rw [labelDistance] at hoff
  have hlabel : label.toNat < 2 ^ 32 := label.isLt
  apply BitVec.eq_of_toNat_eq
  rw [pcRelative, pc1, BitVec.toNat_add, BitVec.toNat_add, show (1#32).toNat = 1 from rfl]
  omega

/-- From an address far enough from both ends of the address space, every offset is that of a label in reach. -/
theorem exists_label (off : Field20) :
    ∃ label, labelInReach 0x80000#32 label = true ∧ labelField 0x80000#32 label = off := by
  obtain ⟨-, -, hlow, hhigh⟩ := signExtensionOfFields off
  have hdist : labelDistance 0x80000#32 (BitVec.ofNat 32 (0x80001 + off.toInt).toNat) = off.toInt := by
    rw [labelDistance, BitVec.toNat_ofNat, show (0x80000#32).toNat = 0x80000 from rfl]
    omega
  exact ⟨_, by rw [labelInReach, hdist, field20InRange_toInt], by rw [labelField, hdist, immField_toInt]⟩

/-- A BR that tests every flag is taken when a flag is set. -/
theorem ccMatch_all_of_oneHot {f : Flags} (h : f.oneHot) : ccMatch true true true f = true := by
  rcases h with rfl | rfl | rfl <;> rfl

/-- Settles O43. -/
theorem labelsAreReached : Obligations.LabelsAreReached := by
  intro s label hreach
  refine ⟨fun dr hdr => ?_, ?_⟩
  · refine ⟨.lea dr (labelField s.pc label), _, assemble_eq_some_iff.mpr ⟨?_, ?_⟩, rfl, ?_⟩
    · exact Bool.and_eq_true_iff.mpr ⟨regInRange_toNat dr, hreach⟩
    · rw [Asm.toInstr, regField_toNat]
    · rw [State.readReg_deliver, State.readReg_writeReg_self, if_neg hdr, State.pcRelative_labelField hreach]
  · refine ⟨_, _, assemble_eq_some_iff.mpr ⟨hreach, rfl⟩, rfl, fun hflags => ?_⟩
    rw [State.setPc_pc, ccMatch_all_of_oneHot hflags, if_pos rfl, State.pcRelative_labelField hreach]

/-! #### Every instruction with a spelling is reached (R95, R99 to R101) -/

/-- The line with the mnemonic of R100 for the flags tested; for no flags R100 has none, and BR stands in. -/
def brLine (n z p : Bool) (label : Word) : Asm :=
  match n, z, p with
  | true, false, false => .brn label
  | false, true, false => .brz label
  | false, false, true => .brp label
  | true, true, false => .brnz label
  | false, true, true => .brzp label
  | true, false, true => .brnp label
  | _, _, _ => .br label

theorem brLine_wellFormed (a : Word) (n z p : Bool) (label : Word) :
    (brLine n z p label).wellFormed a = labelInReach a label := by
  cases n <;> cases z <;> cases p <;> rfl

theorem brLine_toInstr (a : Word) {n z p : Bool} (label : Word) (h : (n || z || p) = true) :
    (brLine n z p label).toInstr a = .br n z p (labelField a label) :=
  match n, z, p, h with
  | true, false, false, _ | false, true, false, _ | false, false, true, _ | true, true, false, _
  | false, true, true, _ | true, false, true, _ | true, true, true, _ => rfl

/-- The line with the mnemonic of R101 for A and D; for a left shift A is 0 (R95, D16: log 18). -/
def shfLine (arith right : Bool) (dr sr1 dist5 : Nat) : Asm :=
  match right, arith with
  | false, _ => .shfll dr sr1 dist5
  | true, false => .shfrl dr sr1 dist5
  | true, true => .shfra dr sr1 dist5

theorem shfLine_wellFormed (a : Word) (arith right : Bool) (dr sr1 dist5 : Nat) :
    (shfLine arith right dr sr1 dist5).wellFormed a = (regInRange dr && regInRange sr1 && dist5InRange dist5) := by
  cases right <;> cases arith <;> rfl

theorem shfLine_toInstr (a : Word) {arith right : Bool} (dr sr1 dist5 : Nat) (h : (right || !arith) = true) :
    (shfLine arith right dr sr1 dist5).toInstr a =
      .shf (regField dr) (regField sr1) arith right (distField dist5) :=
  match arith, right, h with
  | false, false, _ | false, true, _ | true, true, _ => rfl

/-- Every instruction with a spelling is what some line stands for, its operands read back as numbers in range. -/
theorem exists_line_of_spellable {i : Instr} (h : i.spellable = true) : ∃ a line, assemble a line = some i := by
  simp only [assemble_eq_some_iff]
  cases i with
  | add dr sr1 sr2 =>
    refine ⟨0#32, .add dr.toNat sr1.toNat sr2.toNat, ?_⟩
    simp [Asm.wellFormed, Asm.toInstr]
  | addi dr sr1 imm =>
    refine ⟨0#32, .addi dr.toNat sr1.toNat imm.toInt, ?_⟩
    simp [Asm.wellFormed, Asm.toInstr]
  | nand dr sr1 sr2 =>
    refine ⟨0#32, .nand dr.toNat sr1.toNat sr2.toNat, ?_⟩
    simp [Asm.wellFormed, Asm.toInstr]
  | br n z p off =>
    obtain ⟨label, hreach, rfl⟩ := exists_label off
    exact ⟨0x80000#32, brLine n z p label, (brLine_wellFormed ..).trans hreach, brLine_toInstr _ label h⟩
  | jalr ra tgt =>
    refine ⟨0#32, .jalr tgt.toNat ra.toNat, ?_⟩
    simp [Asm.wellFormed, Asm.toInstr]
  | ldr dr baseR off =>
    refine ⟨0#32, .ldr dr.toNat off.toInt baseR.toNat, ?_⟩
    simp [Asm.wellFormed, Asm.toInstr]
  | lea dr off =>
    obtain ⟨label, hreach, rfl⟩ := exists_label off
    refine ⟨0x80000#32, .lea dr.toNat label, ?_⟩
    simp [Asm.wellFormed, Asm.toInstr, hreach]
  | str sr baseR off =>
    refine ⟨0#32, .str sr.toNat off.toInt baseR.toNat, ?_⟩
    simp [Asm.wellFormed, Asm.toInstr]
  | shf dr sr1 arith right dist =>
    refine ⟨0#32, shfLine arith right dr.toNat sr1.toNat dist.toNat, ?_⟩
    simp [shfLine_wellFormed, shfLine_toInstr _ _ _ _ h]
  | halt => exact ⟨0#32, .halt, rfl, rfl⟩

/-- Settles O44. -/
theorem assemblyReachesExactlySpellable : Obligations.AssemblyReachesExactlySpellable := by
  refine ⟨fun a line i h => ?_, fun i h => exists_line_of_spellable h⟩
  obtain ⟨-, rfl⟩ := assemble_eq_some_iff.mp h
  exact toInstr_spellable a line

end Sys2Proof.Machine
end

section
/-! PROOFS. The statements of 40_arithmetic_logic.md: what ADD (R111), ADDI (R112) and NAND (R113) deliver, and that
additions are modulo 2^32 (R110). -/

namespace Sys2Proof.Machine

/-! ### What the three instructions deliver (R111 to R113) -/

/-- What an ADD does (R111). -/
theorem exec_add (dr sr1 sr2 : RegNum) (s : State) :
    exec (.add dr sr1 sr2) s = .next (s.deliver dr (s.readReg sr1 + s.readReg sr2)) := rfl

/-- What an ADDI does (R112). -/
theorem exec_addi (dr sr1 : RegNum) (imm : Field20) (s : State) :
    exec (.addi dr sr1 imm) s = .next (s.deliver dr (s.readReg sr1 + sext20 imm)) := rfl

/-- What a NAND does (R113). -/
theorem exec_nand (dr sr1 sr2 : RegNum) (s : State) :
    exec (.nand dr sr1 sr2) s = .next (s.deliver dr (~~~(s.readReg sr1 &&& s.readReg sr2))) := rfl

/-- Settles O1. -/
theorem addDeliversSum : Obligations.AddDeliversSum :=
  ⟨fun _ hop => (DecodesTo.add hop).decode_eq,
    fun dr sr1 sr2 s => ⟨_, exec_add dr sr1 sr2 s, s.deliver_delivered dr _⟩⟩

/-- Settles O2. -/
theorem addiDeliversSumWithSignExtendedImmediate : Obligations.AddiDeliversSumWithSignExtendedImmediate :=
  ⟨fun _ hop => (DecodesTo.addi hop).decode_eq,
    fun dr sr1 imm s => ⟨_, exec_addi dr sr1 imm s, s.deliver_delivered dr _⟩⟩

/-- Bit by bit, the complement of an AND is 0 exactly where both words are 1 (R113). -/
theorem getLsbD_not_and_eq_false_iff (a b : Word) {i : Nat} (hi : i < 32) :
    (~~~(a &&& b)).getLsbD i = false ↔ a.getLsbD i = true ∧ b.getLsbD i = true := by
  rw [BitVec.getLsbD_not, BitVec.getLsbD_and]
  simp [hi]

/-- Settles O3: the word delivered is the complement of the AND of the sources. -/
theorem nandDeliversComplementOfAnd : Obligations.NandDeliversComplementOfAnd :=
  ⟨fun _ hop => (DecodesTo.nand hop).decode_eq,
    fun dr sr1 sr2 s => ⟨_, _, exec_nand dr sr1 sr2 s, s.deliver_delivered dr _,
      fun _ hi => getLsbD_not_and_eq_false_iff _ _ hi⟩⟩

/-! ### Overflow (R110, D7: log 11) -/

/-- The signed sum of two words is exact when it lies in the signed range (R110). -/
theorem toInt_add_of_fits {a b : Word} (hlow : -2 ^ 31 ≤ a.toInt + b.toInt) (hhigh : a.toInt + b.toInt < 2 ^ 31) :
    (a + b).toInt = a.toInt + b.toInt := by
  rw [BitVec.toInt_add]
  exact Int.bmod_eq_of_le (by omega) (by omega)

/-- A sum delivered to a register other than 0 reads as the sum modulo 2^32, and as the exact signed sum when that
fits. -/
theorem State.delivered.readReg_sum {s t : State} {dr : RegNum} {a b : Word} (h : s.delivered t dr (a + b))
    (hdr : dr ≠ 0#4) : (t.readReg dr).toNat = (a.toNat + b.toNat) % 2 ^ 32 ∧
      (-2 ^ 31 ≤ a.toInt + b.toInt → a.toInt + b.toInt < 2 ^ 31 → (t.readReg dr).toInt = a.toInt + b.toInt) := by
  have hread : t.readReg dr = a + b := h.result.trans (if_neg hdr)
  rw [hread]
  exact ⟨BitVec.toNat_add a b, toInt_add_of_fits⟩

/-- Settles O28: ADD and ADDI deliver sums, and sign extension keeps the signed value of the immediate. -/
theorem additionIsModulo2Pow32 : Obligations.AdditionIsModulo2Pow32 := by
  intro dr sr1 sr2 imm s hdr
  constructor
  · obtain ⟨t, hexec, hsum⟩ := addDeliversSum.2 dr sr1 sr2 s
    exact ⟨t, hexec, hsum.readReg_sum hdr⟩
  · obtain ⟨t, hexec, hsum⟩ := addiDeliversSumWithSignExtendedImmediate.2 dr sr1 imm s
    rw [← toInt_sext20 imm]
    exact ⟨t, hexec, hsum.readReg_sum hdr⟩

end Sys2Proof.Machine
end

section
/-! PROOFS. The statements of 41_control_transfer.md: when BR branches and where to (R120, R121), how JALR links and
jumps (R122), and the BR that loops for ever (R223). -/

namespace Sys2Proof.Machine

/-! ### What the two instructions leave unchanged (R120, R122) -/

/-- A jump changes no register, no flag and no word of memory. -/
theorem State.setPc_frame (s : State) (target : Word) :
    s.sameRegs (s.setPc target) ∧ s.sameFlags (s.setPc target) ∧ s.sameMemory (s.setPc target) ∧
      s.sameControl (s.setPc target) :=
  ⟨fun _ => ⟨rfl, rfl⟩, ⟨rfl, rfl⟩, sameMemory_of_eq rfl, ⟨rfl, rfl⟩⟩

/-- A register write changes no other register, no flag and no word of memory. -/
theorem State.writeReg_frame (s : State) (r : RegNum) (v : Word) :
    s.sameRegsExcept (s.writeReg r v) r ∧ s.sameFlags (s.writeReg r v) ∧ s.sameMemory (s.writeReg r v) ∧
      s.sameControl (s.writeReg r v) :=
  ⟨fun _ hq => s.writeReg_leaves v (.inl fun h => hq (Option.some.inj h).symm),
    ⟨s.flags_writeReg r v, s.writeReg_ccWritten r v⟩, sameMemory_of_eq (s.writeReg_mem r v),
    ⟨s.writeReg_halted r v, s.writeReg_draws r v⟩⟩

/-! ### BR (R120, R121) -/

/-- What a BR does: a jump to the pc-relative target or to the incremented PC (R120). -/
theorem exec_br (n z p : Bool) (off : Field20) (s : State) :
    exec (.br n z p off) s = .next (s.setPc (if ccMatch n z p s.flags then s.pcRelative off else s.pc1)) := rfl

/-- CCMatch is 1 exactly when one of the flags tested is 1 (R120, R167). -/
theorem ccMatch_eq_true_iff {n z p : Bool} {f : Flags} :
    ccMatch n z p f = true ↔ n = true ∧ f.n = true ∨ z = true ∧ f.z = true ∨ p = true ∧ f.p = true := by
  simp [ccMatch, or_assoc]

/-- Settles O4: a BR only jumps, and CCMatch chooses between its two targets. -/
theorem brBranchesOnTestedFlag : Obligations.BrBranchesOnTestedFlag := by
  refine ⟨fun _ hop hzeros => (DecodesTo.br hop hzeros).decode_eq, fun n z p off s => ?_⟩
  refine ⟨_, exec_br n z p off s, fun htested => ?_, fun hnone => ?_, s.setPc_frame _⟩
  · exact if_pos (ccMatch_eq_true_iff.mpr htested)
  · exact if_neg (mt ccMatch_eq_true_iff.mp hnone)

/-- The flags nothing has written read as the three free start-up bits (R121, R215: log 2). -/
theorem State.flags_of_unwritten {s : State} (h : s.ccWritten = false) :
    s.flags = { n := Config.startN, z := Config.startZ, p := Config.startP } := by
  simp [flags, h]

/-- Settles O29: CCMatch tests the three free bits, and with n = z = p = 0 it tests none. -/
theorem brOnUnwrittenFlagsIsADraw : Obligations.BrOnUnwrittenFlagsIsADraw := by
  intro n z p off s hunwritten
  refine ⟨_, exec_br n z p off s, ?_⟩
  rw [State.flags_of_unwritten hunwritten]
  refine ⟨?_, fun hdrawn => if_pos hdrawn, fun hdrawn => if_neg (Bool.eq_false_iff.mp hdrawn)⟩
  rintro rfl rfl rfl
  rfl

/-! ### JALR (R122) -/

/-- What a JALR does: it links, then jumps to what AT reads after the link (R122, D20: log 15). -/
theorem exec_jalr (ra tgt : RegNum) (s : State) :
    exec (.jalr ra tgt) s = .next ((s.writeReg ra s.pc1).setPc ((s.writeReg ra s.pc1).readReg tgt)) := rfl

/-- Settles O5: the link is a register write, and the jump that follows it changes only the pc. -/
theorem jalrLinksThenJumps : Obligations.JalrLinksThenJumps := by
  refine ⟨fun _ hop => (DecodesTo.jalr hop).decode_eq, fun ra tgt s => ?_⟩
  obtain ⟨hregs, hflags, hmem, hcontrol⟩ := s.writeReg_frame ra s.pc1
  have hready : (s.writeReg ra s.pc1).regReady ra = true := by simp [State.regReady_writeReg]
  exact ⟨_, exec_jalr ra tgt s, s.readReg_writeReg_self ra s.pc1, hready, hregs, s.readReg_after_link ra tgt,
    hflags, hmem, hcontrol⟩

/-! ### A branch to itself (R120, R223) -/

/-- With PCoffset20 = -1 the pc-relative target is the address of the instruction itself (R120 (c)). -/
theorem State.pcRelative_neg_one (s : State) : s.pcRelative 0xFFFFF#20 = s.pc := by
  have hoff : sext20 0xFFFFF#20 = -1#32 := by decide
  rw [pcRelative, pc1, hoff, ← BitVec.sub_eq_add_neg, BitVec.add_sub_cancel]

/-- A taken BR to itself leaves the state as it is. -/
theorem exec_br_self {n z p : Bool} {s : State} (htaken : ccMatch n z p s.flags = true) :
    exec (.br n z p 0xFFFFF#20) s = .next s := by
  rw [exec_br, if_pos htaken, s.pcRelative_neg_one]
  rfl

/-- From a state that a step leaves as it is, every run stays there. -/
theorem run_of_step_self {s : State} (h : step s = .next s) (k : Nat) : Sys2Proof.core.run k s = .next s := by
  induction k with
  | zero => rfl
  | succ k ih => rw [run_succ k h, ih]

/-- Settles O30: the step runs the BR, which leaves the state, still running, as it is. -/
theorem branchToSelfLoopsForEver : Obligations.BranchToSelfLoopsForEver := by
  intro s n z p hrun hdec htaken
  have hstep : step s = .next s := (step_of_decode hrun hdec).trans (exec_br_self htaken)
  exact ⟨fun k => ⟨s, run_of_step_self hstep k, hrun⟩, run_of_step_self hstep⟩

end Sys2Proof.Machine
end

section
/-! PROOFS. The statements of 42_load_store_lea.md: what LDR (R130) and LEA (R131) deliver, and what STR (R132)
stores. -/

namespace Sys2Proof.Machine

/-! ### What the loads deliver (R130, R131) -/

/-- What an LDR does (R130). -/
theorem exec_ldr (dr baseR : RegNum) (off : Field20) (s : State) :
    exec (.ldr dr baseR off) s = .next (s.deliver dr (s.memRead (s.baseAddress baseR off))) := rfl

/-- What an LEA does (R131). -/
theorem exec_lea (dr : RegNum) (off : Field20) (s : State) :
    exec (.lea dr off) s = .next (s.deliver dr (s.pcRelative off)) := rfl

/-- Settles O6: the address is formed, and the word read, in the state before DR is written. -/
theorem ldrDeliversWordAtBasePlusOffset : Obligations.LdrDeliversWordAtBasePlusOffset :=
  ⟨fun _ hop => (DecodesTo.ldr hop).decode_eq,
    fun dr baseR off s => ⟨_, exec_ldr dr baseR off s, s.deliver_delivered dr _⟩⟩

/-- Settles O7: the address itself is delivered, not truncated as on an access. -/
theorem leaDeliversPcRelativeAddress : Obligations.LeaDeliversPcRelativeAddress :=
  ⟨fun _ hop => (DecodesTo.lea hop).decode_eq,
    fun dr off s => ⟨_, exec_lea dr off s, s.deliver_delivered dr _⟩⟩

/-! ### What a store leaves (R54, R132) -/

/-- After a store the word its address names is written, and no other word's standing changes. -/
theorem State.memReady_memWrite (s : State) (addr v b : Word) :
    (s.memWrite addr v).memReady b = (decide (wordCell b = wordCell addr) || s.memReady b) := by
  rw [memReady, memReady, memWrite_mem, readCell_writeWord]
  by_cases hb : wordCell b = wordCell addr <;> simp [hb]

/-- A store changes no register and no flag. -/
theorem State.memWrite_frame (s : State) (addr v : Word) :
    s.sameRegs (s.memWrite addr v) ∧ s.sameFlags (s.memWrite addr v) ∧ s.sameControl (s.memWrite addr v) :=
  ⟨fun q => ⟨s.readReg_memWrite addr v q, s.regReady_memWrite addr v q⟩,
    ⟨s.flags_memWrite addr v, s.memWrite_ccWritten addr v⟩, ⟨s.memWrite_halted addr v, s.memWrite_draws addr v⟩⟩

/-- Settles O8: a STR is one store, and the advance that follows it changes only the pc. -/
theorem strStoresWordAtBasePlusOffset : Obligations.StrStoresWordAtBasePlusOffset := by
  refine ⟨fun _ hop => (DecodesTo.str hop).decode_eq, fun sr baseR off s => ?_⟩
  have hready : (s.memWrite (s.baseAddress baseR off) (s.readReg sr)).memReady (s.baseAddress baseR off) = true := by
    simp [State.memReady_memWrite]
  exact ⟨_, exec_str sr baseR off s, s.memRead_memWrite_of_sameWord _ rfl, hready,
    fun _ ha => s.sameCell_memWrite _ ha, rfl, s.memWrite_frame (s.baseAddress baseR off) (s.readReg sr)⟩

end Sys2Proof.Machine
end

section
/-! PROOFS. The statement of 43_shift.md: what SHF delivers, bit by bit (R140). -/

namespace Sys2Proof.Machine

/-! ### The parts of the shift vector in the word (R86) -/

/-- A of the shift vector is bit 19 of the word. -/
theorem shiftA_field20 (w : Word) : shiftA (field20 w) = w.getLsbD 19 := by
  simp [shiftA, field20]

/-- D of the shift vector is bit 18 of the word. -/
theorem shiftD_field20 (w : Word) : shiftD (field20 w) = w.getLsbD 18 := by
  simp [shiftD, field20]

/-- The distance is bits 4:0 of the word. -/
theorem shiftDist_field20 (w : Word) : shiftDist (field20 w) = w.extractLsb' 0 5 :=
  BitVec.extractLsb'_extractLsb'_of_le (by decide)

/-- Every word with opcode 1000 is a SHF, whatever its bits 17:5 are (R86, R93). -/
theorem decode_shf {w : Word} (hop : fieldOp w = 0b1000#4) :
    decode w = .ok (.shf (fieldRX w) (fieldRY w) (w.getLsbD 19) (w.getLsbD 18) (w.extractLsb' 0 5)) := by
  rw [(DecodesTo.shf hop).decode_eq, shiftA_field20, shiftD_field20, shiftDist_field20]

/-! ### The three shifts bit by bit (R11, R140) -/

/-- Left: zeros enter at bit 0, and A is ignored (R95). -/
theorem getLsbD_shiftValue_left (arith : Bool) (v : Word) (dist : Dist5) {i : Nat} (hi : i < 32) :
    (shiftValue arith false v dist).getLsbD i =
      if dist.toNat ≤ i then v.getLsbD (i - dist.toNat) else false := by
  change (v <<< dist.toNat).getLsbD i = _
  rw [BitVec.getLsbD_shiftLeft]
  by_cases hd : dist.toNat ≤ i <;> simp [hi, hd]

/-- Right logical: zeros enter at bit 31. -/
theorem getLsbD_shiftValue_right_logical (v : Word) (dist : Dist5) (i : Nat) :
    (shiftValue false true v dist).getLsbD i =
      if i + dist.toNat ≤ 31 then v.getLsbD (i + dist.toNat) else false := by
  change (v >>> dist.toNat).getLsbD i = _
  rw [BitVec.getLsbD_ushiftRight, Nat.add_comm]
  split
  · rfl
  · exact BitVec.getLsbD_of_ge _ _ (by omega)

/-- Right arithmetic: copies of the sign bit enter at bit 31. -/
theorem getLsbD_shiftValue_right_arithmetic (v : Word) (dist : Dist5) {i : Nat} (hi : i < 32) :
    (shiftValue true true v dist).getLsbD i =
      if i + dist.toNat ≤ 31 then v.getLsbD (i + dist.toNat) else v.getLsbD 31 := by
  have hrange : i + dist.toNat < 32 ↔ i + dist.toNat ≤ 31 := Nat.lt_succ_iff
  change (v.sshiftRight dist.toNat).getLsbD i = _
  rw [BitVec.getLsbD_sshiftRight, BitVec.msb_eq_getLsbD_last, Nat.add_comm]
  simp only [hrange, Nat.not_le.mpr hi, decide_false, Bool.not_false, Bool.true_and]

/-! ### What SHF delivers (R140) -/

/-- What a SHF does (R140). -/
theorem exec_shf (dr sr1 : RegNum) (arith right : Bool) (dist : Dist5) (s : State) :
    exec (.shf dr sr1 arith right dist) s = .next (s.deliver dr (shiftValue arith right (s.readReg sr1) dist)) := rfl

/-- Settles O9: the shifted value is delivered, and its bits are those of the shift that D and A select. -/
theorem shfDeliversShiftedValue : Obligations.ShfDeliversShiftedValue := by
  refine ⟨fun _ hop => decode_shf hop, fun dr sr1 arith right dist s =>
    ⟨_, _, exec_shf dr sr1 arith right dist s, s.deliver_delivered dr _, fun i hi => ?_⟩⟩
  match right, arith with
  | false, _ => exact getLsbD_shiftValue_left _ _ _ hi
  | true, false => exact getLsbD_shiftValue_right_logical _ _ _
  | true, true => exact getLsbD_shiftValue_right_arithmetic _ _ hi

end Sys2Proof.Machine
end

section
/-! PROOFS. The statement of 44_halt.md: HALT stops the machine for good and keeps its state (R150). -/

namespace Sys2Proof.Machine

/-- What a HALT does (R150). -/
theorem exec_halt (s : State) : exec .halt s = .next s.halt := rfl

/-- Halting changes no register, no flag and no word of memory; the pc is left open (R151: log 16). -/
theorem State.halt_frame (s : State) : s.sameRegs s.halt ∧ s.sameFlags s.halt ∧ s.sameMemory s.halt :=
  ⟨fun q => ⟨s.readReg_halt q, s.regReady_halt q⟩, ⟨s.flags_halt, s.halt_ccWritten⟩, sameMemory_of_eq s.halt_mem⟩

/-- A halted machine goes to no next state: what it answers is the stop of R18. -/
theorem step_ne_next_of_halted {s : State} (h : s.halted = true) (t : State) : step s ≠ .next t := by
  rw [step_of_halted h]
  exact nofun

/-- Settles O10: HALT only sets the halted bit, and a machine with that bit set has no step. -/
theorem haltStopsAndKeepsState : Obligations.HaltStopsAndKeepsState := by
  refine ⟨fun _ hop => (DecodesTo.halt hop).decode_eq, fun s => ?_⟩
  obtain ⟨hregs, hflags, hmem⟩ := s.halt_frame
  exact ⟨s.halt, exec_halt s, s.halt_halted, hregs, hflags, hmem, step_ne_next_of_halted s.halt_halted⟩

end Sys2Proof.Machine
end

section
/-! PROOFS. The statements of 49_datapath_and_microcontrol.md on one microstate: the control word (R160), the mux
(R161), the register and ALU selections (R162, R163), what a microstate changes (R166), and which ones are refused (U15,
U16, U21). -/

namespace Sys2Proof.Machine

/-! ### The control word bit by bit (R160) -/

/-- The one-bit signals of a control word, bit 6 first (Table 3, R160). -/
def Control.signals (c : Control) : Vector Bool 19 :=
  #v[c.drReg, c.drMem, c.drAlu, c.drPc, c.drOff, c.ldPc, c.ldIr, c.ldMar, c.ldA, c.ldB, c.ldCc, c.wrReg, c.wrMem,
    c.regSelLo, c.regSelHi, c.aluLo, c.aluHi, c.opTest, c.chkCc]

/-- NextState and the one-bit signals are all there is to a control word. -/
theorem Control.eq_of_signals {c c' : Control} (hnext : c.nextState = c'.nextState)
    (hsignals : c.signals = c'.signals) : c = c' := by
  cases c
  cases c'
  simp only [signals, Vector.mk_eq, Array.mk.injEq, List.cons.injEq] at hnext hsignals
  simp only [hnext, hsignals]

theorem Control.signals_ofWord (w : ControlWord) {k : Nat} (hk : k < 19) :
    (Control.ofWord w).signals[k] = w.getLsbD (6 + k) := by
  interval_cases k <;> rfl

theorem Control.getLsbD_toWord_nextState (c : Control) {i : Nat} (hi : i < 6) :
    c.toWord.getLsbD i = c.nextState.getLsbD i := by
  simp only [toWord, BitVec.getLsbD_append, hi, if_true]

theorem Control.getLsbD_toWord_signal (c : Control) {k : Nat} (hk : k < 19) :
    c.toWord.getLsbD (6 + k) = c.signals[k] := by
  simp only [toWord, BitVec.getLsbD_append]
  interval_cases k <;> simp [signals]

theorem Control.ofWord_toWord (c : Control) : Control.ofWord c.toWord = c := by
  refine eq_of_signals ?_ (Vector.ext fun k hk => ?_)
  · refine BitVec.eq_of_getLsbD_eq fun i hi => ?_
    rw [← getLsbD_toWord_nextState c hi]
    simp [ofWord, hi]
  · rw [signals_ofWord, getLsbD_toWord_signal c hk]

theorem Control.toWord_ofWord (w : ControlWord) : (Control.ofWord w).toWord = w := by
  refine BitVec.eq_of_getLsbD_eq fun i hi => ?_
  by_cases hlow : i < 6
  · rw [getLsbD_toWord_nextState _ hlow]
    simp [ofWord, hlow]
  · obtain ⟨k, rfl⟩ := Nat.exists_eq_add_of_le (not_lt.mp hlow)
    have hk : k < 19 := by omega
    rw [getLsbD_toWord_signal _ hk, signals_ofWord]

/-- Settles O47. -/
theorem controlWordRoundTrip : Obligations.ControlWordRoundTrip :=
  ⟨Control.ofWord_toWord, Control.toWord_ofWord⟩

/-! ### The next microstate, for either order of the mux (R159, R161) -/

section Mux

variable (cfg : MicroConfig) (m : MicroState) {c : Control}

theorem MicroState.nextUState_linked (hop : c.opTest = false) (hcc : c.chkCc = false) :
    m.nextUState cfg c = some c.nextState := by
  cases hmux : cfg.muxOrder <;> simp [nextUState, hmux, hop, hcc, muxSelect, muxInput]

theorem MicroState.nextUState_opTest (hop : c.opTest = true) (hcc : c.chkCc = false) :
    m.nextUState cfg c = some (seqStart cfg (fieldOp m.ir)) := by
  cases hmux : cfg.muxOrder <;> simp [nextUState, hmux, hop, hcc, muxSelect, muxInput]

theorem MicroState.nextUState_chkCc (hop : c.opTest = false) (hcc : c.chkCc = true) :
    m.nextUState cfg c = some (ccStart cfg m.ccMatchBit) := by
  cases hmux : cfg.muxOrder <;> simp [nextUState, hmux, hop, hcc, muxSelect, muxInput]

theorem MicroState.nextUState_both (hop : c.opTest = true) (hcc : c.chkCc = true) : m.nextUState cfg c = none := by
  cases hmux : cfg.muxOrder <;> simp [nextUState, hmux, hop, hcc, muxSelect, muxInput]

/-- Only with both tests asserted is there no next microstate (R161, U15). -/
theorem MicroState.exists_nextUState (h : ¬ (c.opTest = true ∧ c.chkCc = true)) :
    ∃ u, m.nextUState cfg c = some u := by
  cases hop : c.opTest <;> cases hcc : c.chkCc
  · exact ⟨_, nextUState_linked cfg m hop hcc⟩
  · exact ⟨_, nextUState_chkCc cfg m hop hcc⟩
  · exact ⟨_, nextUState_opTest cfg m hop hcc⟩
  · exact absurd ⟨hop, hcc⟩ h

/-- The sequencer ROM is addressed by the opcode (R157). -/
theorem some_seqStart (op : Opcode) : some (seqStart cfg op) = cfg.seqRom[op.toNat]? :=
  (Vector.getElem?_eq_getElem op.isLt).symm

/-- Of the CCMatch ROM only the words 0 and 1 are addressed (R159). -/
theorem some_ccStart (bit : Bool) : some (ccStart cfg bit) = cfg.ccRom[if bit = true then 1 else 0]? := by
  cases bit <;> rfl

end Mux

/-- Settles O48: one clause for each setting of OPTest and ChkCC. -/
theorem nextMicrostateSource : Obligations.NextMicrostateSource := fun cfg m _ =>
  ⟨m.nextUState_linked cfg,
    fun hop hcc => (m.nextUState_opTest cfg hop hcc).trans (some_seqStart cfg _),
    fun hop hcc => (m.nextUState_chkCc cfg hop hcc).trans (some_ccStart cfg _),
    m.nextUState_both cfg⟩

/-! ### The register and ALU selections (R162, R163) -/

/-- The register that drives or is written is the one Table 4 selects (R162). -/
theorem MicroState.selected_eq {m : MicroState} {c : Control} {q : RegNum}
    (h : regSelect c.regSelHi c.regSelLo m.ir = some q) : m.selected c = q := by
  simp [selected, h]

/-- Settles O49: the same selection serves the bus and the write. -/
theorem registerSelectionMap : Obligations.RegisterSelectionMap := by
  refine ⟨fun ir => ⟨rfl, rfl, rfl, rfl⟩, fun cfg m c q v hq => ?_⟩
  have hsel := MicroState.selected_eq hq
  refine ⟨fun hdr => by simp [MicroState.bus, hdr, hsel], fun hwr => ?_⟩
  rw [MicroState.latchArch_readReg, hsel]
  by_cases hzero : q = 0#4 <;> simp [hwr, hzero]

/-- Settles O50: each row of Table 5 is a branch of `aluResult`. -/
theorem aluFunctionMap : Obligations.AluFunctionMap := fun _ _ _ => ⟨rfl, rfl, rfl, rfl, rfl⟩

/-- The unused row of Table 4 is the one with both select signals (R162). -/
theorem regSelect_isNone_iff {hi lo : Bool} {ir : Word} :
    (regSelect hi lo ir).isNone = true ↔ hi = true ∧ lo = true := by
  cases hi <;> cases lo <;> simp [regSelect]

/-! ### Which microstates run (R161, R162, R166) -/

/-- The micro machine after a microstate with the signals `c`, followed by `u`: everything a load signal names takes
the value on the bus (R166; log 23). -/
def MicroState.clocked (cfg : MicroConfig) (m : MicroState) (c : Control) (u : UState) : MicroState where
  arch := m.latchArch c (m.bus cfg c)
  ir := if c.ldIr then m.bus cfg c else m.ir
  mar := if c.ldMar then m.bus cfg c else m.mar
  latchA := if c.ldA then m.bus cfg c else m.latchA
  latchB := if c.ldB then m.bus cfg c else m.latchB
  ustate := u

/-- A microstate that drives the bus at most once, uses no unused selection and has a successor runs. -/
theorem microStep_of_runs {cfg : MicroConfig} {m : MicroState} {c : Control} {u : UState} (hc : m.control cfg = c)
    (hdrivers : c.drivers ≤ 1) (hsel : c.regSelHi = true → c.regSelLo = true → c.drReg = false ∧ c.wrReg = false)
    (hu : m.nextUState cfg c = some u) : microStep cfg m = .next (m.clocked cfg c u) := by
  have hbus : ¬ 1 < c.drivers := not_lt.mpr hdrivers
  have hreg : ((regSelect c.regSelHi c.regSelLo m.ir).isNone && (c.drReg || c.wrReg)) = false := by
    rw [Bool.and_eq_false_imp, regSelect_isNone_iff]
    rintro ⟨hhi, hlo⟩
    obtain ⟨hdr, hwr⟩ := hsel hhi hlo
    rw [hdr, hwr]
    rfl
  simp only [microStep, hc, hbus, hreg, hu, if_false, Bool.false_eq_true, MicroState.clocked]

/-- Settles O52: what `microStep_of_runs` asks for is what a microstate that runs has met. -/
theorem microstateRefusals : Obligations.MicrostateRefusals := by
  intro cfg m c
  constructor
  · rintro ⟨r, hr⟩
    by_contra hok
    simp only [not_or] at hok
    obtain ⟨hbus, hreg, htests⟩ := hok
    obtain ⟨u, hu⟩ := m.exists_nextUState cfg htests
    have hsel (hhi : c.regSelHi = true) (hlo : c.regSelLo = true) : c.drReg = false ∧ c.wrReg = false := by
      simpa [hhi, hlo] using hreg
    rw [microStep_of_runs rfl (not_lt.mp hbus) hsel hu] at hr
    cases hr
  · intro hbad
    rcases microStep_outcome cfg m with ⟨m', hrun⟩ | hrefused
    · obtain ⟨u, hu, hdrivers, hsel, -⟩ := microStep_next_inv hrun
      rcases hbad with hbus | ⟨hhi, hlo, hreg⟩ | ⟨hop, hcc⟩
      · exact absurd hdrivers (not_le.mpr hbus)
      · obtain ⟨hdr, hwr⟩ := hsel (regSelect_isNone_iff.mpr ⟨hhi, hlo⟩)
        simp [c, hdr, hwr] at hreg
      · rw [m.nextUState_both cfg hop hcc] at hu
        cases hu
    · exact hrefused

/-! ### What a microstate leaves unchanged (R27, R162, R166) -/

section Frame

variable (m : MicroState) {c : Control} (v : Word)

theorem MicroState.latchArch_sameFlags (h : c.ldCc = false) : m.arch.sameFlags (m.latchArch c v) := by
  have hcc : (m.latchArch c v).cc = m.arch.cc := by simp [latchArch_cc, h]
  have hwritten : (m.latchArch c v).ccWritten = m.arch.ccWritten := by simp [latchArch_ccWritten, h]
  exact ⟨by simp only [State.flags, hcc, hwritten], hwritten⟩

theorem MicroState.latchArch_sameMemory (h : c.wrMem = false) : m.arch.sameMemory (m.latchArch c v) :=
  State.sameMemory_of_eq (by simp [latchArch_mem, h])

/-- The only word a microstate can write is the one the MAR names. -/
theorem MicroState.latchArch_sameCell {a : Nat} (ha : a ≠ wordCell m.mar) : m.arch.sameCell (m.latchArch c v) a := by
  cases hwr : c.wrMem with
  | false => exact m.latchArch_sameMemory v hwr a
  | true =>
    have hmem : (m.latchArch c v).mem = (m.arch.memWrite m.mar v).mem := by simp [latchArch_mem, hwr]
    obtain ⟨hword, hwritten⟩ := m.arch.sameCell_memWrite v ha
    exact ⟨(State.wordAt_congr hmem a).trans hword, by rw [hmem, hwritten]⟩

/-- A register that is not written, not the selected one, or register 0 reads as before. -/
theorem MicroState.latchArch_readReg_of_not_written {q : RegNum}
    (hsel : (regSelect c.regSelHi c.regSelLo m.ir).isNone = true → c.drReg = false ∧ c.wrReg = false)
    (h : c.wrReg = false ∨ some q ≠ regSelect c.regSelHi c.regSelLo m.ir ∨ q = 0#4) :
    (m.latchArch c v).readReg q = m.arch.readReg q := by
  rw [latchArch_readReg]
  refine if_neg fun ⟨hwr, hq, hzero⟩ => ?_
  rcases h with hnot | hother | rfl
  · rw [hnot] at hwr
    cases hwr
  · cases hreg : regSelect c.regSelHi c.regSelLo m.ir with
    | none =>
      obtain ⟨-, hnot⟩ := hsel (by rw [hreg]; rfl)
      rw [hnot] at hwr
      cases hwr
    | some r => exact hother (by rw [hreg, hq, selected_eq hreg])
  · exact hzero hq.symm

end Frame

/-- Settles O51: what was not loaded is left, field by field. -/
theorem microstateChangesOnlyWhatItLoads : Obligations.MicrostateChangesOnlyWhatItLoads := by
  intro cfg m m' h c
  obtain ⟨u, -, -, hsel, rfl⟩ := microStep_next_inv h
  exact ⟨fun hld => by simp [MicroState.latchArch_pc, c, hld], fun hld => by simp [c, hld], fun hld => by simp [c, hld],
    fun hld => by simp [c, hld], fun hld => by simp [c, hld], m.latchArch_sameFlags _, m.latchArch_sameMemory _,
    fun _ => m.latchArch_sameCell _, fun _ => m.latchArch_readReg_of_not_written _ hsel⟩

end Sys2Proof.Machine
end

section
/-! PROOFS. The statements of 49_datapath_and_microcontrol.md on the instruction cycle of R170, for any ROM contents
that follow it (log 22): HALT never leads back to FETCH, and every other instruction does. -/

namespace Sys2Proof.Machine

/-- The sketch follows the cycle: its ROMs are searched (R172; log 28). -/
theorem sketch_followsCycle : followsCycle sketchConfig = true := by decide

/-- Settles O57: the machine's own microcode is the free value only where that follows the cycle. -/
theorem microcodeFollowsCycle : Obligations.MicrocodeFollowsCycle := by
  refine ⟨?_, sketch_followsCycle⟩
  unfold microcode
  split
  · assumption
  · exact sketch_followsCycle

/-! ### The conditions of the cycle, by name (R170) -/

section Cycle

variable {cfg : MicroConfig}

theorem followsCycle_returns (h : followsCycle cfg = true) {op : Opcode} (hop : op ∈ linkedOpcodes) :
    returnsFrom cfg (seqStart cfg op) = true := by
  simp only [followsCycle, Bool.and_eq_true, List.all_eq_true] at h
  obtain ⟨⟨⟨⟨⟨-, hlinked⟩, -⟩, -⟩, -⟩, -⟩ := h
  exact hlinked op hop

theorem followsCycle_brTests (h : followsCycle cfg = true) :
    leadsTo cfg (testsFlags cfg) microstates (seqStart cfg 0b0011#4) = true := by
  simp only [followsCycle, Bool.and_eq_true] at h
  obtain ⟨⟨⟨⟨-, hbr⟩, -⟩, -⟩, -⟩ := h
  exact hbr

theorem followsCycle_brReturns (h : followsCycle cfg = true) (taken : Bool) :
    ccStart cfg taken = cfg.fetchState ∨ returnsFrom cfg (ccStart cfg taken) = true := by
  simp only [followsCycle, Bool.and_eq_true, Bool.or_eq_true, beq_iff_eq] at h
  obtain ⟨⟨⟨-, hnotTaken⟩, htaken⟩, -⟩ := h
  cases taken
  · exact hnotTaken
  · exact htaken

theorem followsCycle_haltStaysAway (h : followsCycle cfg = true) :
    staysAway cfg microstates (seqStart cfg 0b1111#4) = true := by
  simp only [followsCycle, Bool.and_eq_true] at h
  obtain ⟨-, hhalt⟩ := h
  exact hhalt

end Cycle

/-! ### HALT never leads back to FETCH (R158, R161) -/

/-- The microstate that the NextState field of a microstate names (R160). -/
def successor (cfg : MicroConfig) (u : UState) : UState := (controlOf cfg u).nextState

/-- A chain of microstates repeats itself after as many as there are (R158): every later one is among the first 64. -/
theorem iterate_eq_of_lt_microstates (f : UState → UState) (u : UState) (j : Nat) :
    ∃ i < microstates, f^[j] u = f^[i] u := by
  induction j using Nat.strong_induction_on with
  | _ j ih =>
    by_cases hj : j < microstates
    · exact ⟨j, hj, rfl⟩
    · have hcard : Fintype.card UState < Fintype.card (Fin (microstates + 1)) := by decide
      obtain ⟨a, b, hab, heq⟩ : ∃ a b : Fin (microstates + 1), a < b ∧ f^[a] u = f^[b] u := by
        obtain ⟨a, b, hne, heq⟩ := Fintype.exists_ne_map_eq_of_card_lt (fun i : Fin (microstates + 1) => f^[i] u) hcard
        rcases lt_or_gt_of_ne hne with hlt | hgt
        · exact ⟨a, b, hlt, heq⟩
        · exact ⟨b, a, hgt, heq.symm⟩
      have hb : b.val ≤ j := by omega
      obtain ⟨i, hi, hearlier⟩ := ih (j - b + a) (by omega)
      refine ⟨i, hi, ?_⟩
      calc f^[j] u = f^[j - b] (f^[b] u) := by rw [← Function.iterate_add_apply, Nat.sub_add_cancel hb]
        _ = f^[j - b + a] u := by rw [← heq, ← Function.iterate_add_apply]
        _ = f^[i] u := hearlier

section Chains

variable {cfg : MicroConfig} {m m' : MicroState}

theorem staysAway_iterate {u : UState} {k j : Nat} (h : staysAway cfg k u = true) (hj : j < k) :
    (successor cfg)^[j] u ≠ cfg.fetchState ∧ linked cfg ((successor cfg)^[j] u) = true := by
  induction k generalizing u j with
  | zero => omega
  | succ k ih =>
    simp only [staysAway, Bool.and_eq_true, bne_iff_ne] at h
    obtain ⟨⟨haway, hlinked⟩, hrest⟩ := h
    cases j with
    | zero => exact ⟨haway, hlinked⟩
    | succ j => exact ih (u := successor cfg u) hrest (Nat.lt_of_succ_lt_succ hj)

/-- A chain that stays away from FETCH for 64 microstates does so for ever. -/
theorem staysAway_forever {u : UState} (h : staysAway cfg microstates u = true) (j : Nat) :
    (successor cfg)^[j] u ≠ cfg.fetchState ∧ linked cfg ((successor cfg)^[j] u) = true := by
  obtain ⟨i, hi, heq⟩ := iterate_eq_of_lt_microstates (successor cfg) u j
  rw [heq]
  exact staysAway_iterate h hi

/-- A run of one clock more takes that clock and goes on from there. -/
theorem microRun_succ_inv {k : Nat} (h : microRun cfg (k + 1) m = .next m') :
    ∃ m₁, microStep cfg m = .next m₁ ∧ microRun cfg k m₁ = .next m' := by
  rcases microStep_outcome cfg m with ⟨m₁, hstep⟩ | ⟨r, hstep⟩
  · exact ⟨m₁, hstep, by rwa [microRun_succ k hstep] at h⟩
  · simp [microRun, hstep] at h

/-- A run along linked microstates is where their NextState fields lead. -/
theorem microRun_ustate_of_linked {k : Nat} (hlinked : ∀ j, linked cfg ((successor cfg)^[j] m.ustate) = true)
    (h : microRun cfg k m = .next m') : m'.ustate = (successor cfg)^[k] m.ustate := by
  induction k generalizing m with
  | zero => cases h; rfl
  | succ k ih =>
    obtain ⟨m₁, hstep, hrun⟩ := microRun_succ_inv h
    have hnext : m₁.ustate = successor cfg m.ustate := microStep_linked hstep (hlinked 0)
    rw [ih (fun j => hnext ▸ hlinked (j + 1)) hrun, hnext, Function.iterate_succ_apply]

end Chains

/-- Settles O58: the run follows the chain of HALT, which never comes to FETCH. -/
theorem haltMicrostatesNeverFetch : Obligations.HaltMicrostatesNeverFetch := by
  intro cfg m hcycle hm k m' hrun
  have hchain (j : Nat) := staysAway_forever (followsCycle_haltStaysAway hcycle) j
  rw [← hm] at hchain
  rw [microRun_ustate_of_linked (fun j => (hchain j).2) hrun]
  exact (hchain k).1

/-! ### The other instructions lead back to FETCH (R161, R170) -/

section Returning

variable {cfg : MicroConfig} {m : MicroState}

/-- Within `n` clocks the micro machine has the property `p`, unless one of the microstates is refused. -/
def reachesWithin (cfg : MicroConfig) (p : MicroState → Prop) (n : Nat) (m : MicroState) : Prop :=
  ∃ k, k ≤ n ∧ ((∃ m', microRun cfg k m = .next m' ∧ p m') ∨ ∃ r, microRun cfg k m = .refused r)

variable {p q : MicroState → Prop} {n n' : Nat}

theorem reachesWithin.now (n : Nat) (h : p m) : reachesWithin cfg p n m := ⟨0, n.zero_le, .inl ⟨m, rfl, h⟩⟩

theorem reachesWithin.mono (h : reachesWithin cfg p n m) (hn : n ≤ n') : reachesWithin cfg p n' m := by
  obtain ⟨k, hk, hend⟩ := h
  exact ⟨k, hk.trans hn, hend⟩

theorem reachesWithin.clock (h : ∀ m', microStep cfg m = .next m' → reachesWithin cfg p n m') :
    reachesWithin cfg p (n + 1) m := by
  rcases microStep_outcome cfg m with ⟨m', hstep⟩ | ⟨r, hstep⟩
  · obtain ⟨k, hk, hend⟩ := h m' hstep
    rw [← microRun_succ k hstep] at hend
    exact ⟨k + 1, Nat.succ_le_succ hk, hend⟩
  · exact ⟨1, by omega, .inr ⟨r, by simp [microRun, hstep]⟩⟩

theorem reachesWithin.trans (h : reachesWithin cfg p n m) (hp : ∀ m', p m' → reachesWithin cfg q n' m') :
    reachesWithin cfg q (n + n') m := by
  obtain ⟨k, hk, ⟨m', hrun, hm'⟩ | hrefused⟩ := h
  · obtain ⟨k', hk', hend⟩ := hp m' hm'
    rw [← microRun_add k k' hrun] at hend
    exact ⟨k + k', Nat.add_le_add hk hk', hend⟩
  · exact ⟨k, by omega, .inr hrefused⟩

/-- A chain of `n + 1` linked microstates that has one with a property reaches it within `n` clocks. -/
theorem reachesWithin_of_leadsTo {p : UState → Bool} (h : leadsTo cfg p (n + 1) m.ustate = true) :
    reachesWithin cfg (fun m' => p m'.ustate = true) n m := by
  induction n generalizing m with
  | zero =>
    simp only [leadsTo, Bool.and_false, Bool.or_false] at h
    exact .now 0 h
  | succ n ih =>
    rw [leadsTo, Bool.or_eq_true, Bool.and_eq_true] at h
    rcases h with hp | ⟨hlinked, hrest⟩
    · exact .now (n + 1) hp
    · exact .clock fun m' hstep => ih (by rwa [microStep_linked hstep hlinked])

/-- The control unit is in the first FETCH microstate. -/
def MicroState.atFetch (cfg : MicroConfig) (m : MicroState) : Prop := m.ustate = cfg.fetchState

/-- One clock after the microstate that names the first FETCH microstate, which is among the first 64. -/
theorem reachesWithin_of_returnsFrom (h : returnsFrom cfg m.ustate = true) :
    reachesWithin cfg (MicroState.atFetch cfg) 64 m := by
  refine (reachesWithin_of_leadsTo (n := 63) h).trans (n' := 1) fun m₁ hnames => .clock fun m' hstep => .now 0 ?_
  rw [namesFetch, Bool.and_eq_true, beq_iff_eq] at hnames
  obtain ⟨hlinked, hnext⟩ := hnames
  exact (microStep_linked hstep hlinked).trans hnext

/-- The microstates of a BR come back to FETCH by either word of the CCMatch ROM: at most 63 clocks to the test, one
for the test and 64 from there. -/
theorem reachesWithin_of_br (hcycle : followsCycle cfg = true) (hm : m.ustate = seqStart cfg 0b0011#4) :
    reachesWithin cfg (MicroState.atFetch cfg) 128 m := by
  have hchain : leadsTo cfg (testsFlags cfg) microstates m.ustate = true := by
    rw [hm]
    exact followsCycle_brTests hcycle
  refine (reachesWithin_of_leadsTo (n := 63) hchain).trans (n' := 65) fun m₁ htests => .clock fun m' hstep => ?_
  have hstart := microStep_testsFlags hstep htests
  rcases followsCycle_brReturns hcycle m₁.ccMatchBit with hfetch | hreturns
  · exact .now 64 (hstart.trans hfetch)
  · exact reachesWithin_of_returnsFrom (hstart ▸ hreturns)

/-- The opcodes up to 1000 are BR and those whose microstates NextState fields alone link (R91). -/
theorem mem_linkedOpcodes_or_br : ∀ op : Opcode, op.toNat ≤ 8 → op ∈ linkedOpcodes ∨ op = 0b0011#4 := by decide

end Returning

/-- Settles O59: NextState fields alone lead back, or those and the test of a BR. -/
theorem instructionMicrostatesReturnToFetch : Obligations.InstructionMicrostatesReturnToFetch := by
  intro cfg m op hcycle hop hm
  rcases mem_linkedOpcodes_or_br op hop with hlinked | rfl
  · exact (reachesWithin_of_returnsFrom (hm ▸ followsCycle_returns hcycle hlinked)).mono (by decide)
  · exact reachesWithin_of_br hcycle hm

end Sys2Proof.Machine
end

section
/-! PROOFS. The statements of 49_datapath_and_microcontrol.md on the microprogram sketch of R172 (log 28): it carries
out every instruction and every run of them, and a HALT ends it. -/

namespace Sys2Proof.Machine

/-! ### What each kind of microstate of the sketch does (R172) -/

/-- A linked microstate that drives the bus at most once and uses no unused selection runs. -/
theorem microStep_of_linked {cfg : MicroConfig} {m : MicroState} {c : Control} (hc : m.control cfg = c)
    (hop : c.opTest = false) (hcc : c.chkCc = false) (hdrivers : c.drivers ≤ 1)
    (hsel : c.regSelHi = true → c.regSelLo = true → c.drReg = false ∧ c.wrReg = false) :
    microStep cfg m = .next (m.clocked cfg c c.nextState) :=
  microStep_of_runs hc hdrivers hsel (m.nextUState_linked cfg hop hcc)

section Microstates

variable {m : MicroState} {next : UState}

/-- The signals of the sketch at a microstate, by its number. -/
theorem sketch_at (k : Nat) (h : m.ustate = BitVec.ofNat 6 k) (hk : k < 33 := by decide) :
    m.control sketchConfig = sketchControls[k]'hk :=
  m.control_sketch (by rw [h, BitVec.toNat_ofNat]; omega) hk

/-- FETCH begins: MAR and A take the pc. -/
theorem microStep_pcToMarAndA
    (h : m.control sketchConfig = { nextState := next, drPc := true, ldMar := true, ldA := true }) :
    microStep sketchConfig m = .next { m with mar := m.arch.pc, latchA := m.arch.pc, ustate := next } :=
  microStep_of_linked h rfl rfl le_rfl nofun

/-- FETCH goes on: IR takes the word the MAR names. -/
theorem microStep_memToIr (h : m.control sketchConfig = { nextState := next, drMem := true, ldIr := true }) :
    microStep sketchConfig m = .next { m with ir := m.arch.memRead m.mar, ustate := next } :=
  microStep_of_linked h rfl rfl le_rfl nofun

/-- FETCH ends: the pc takes A + 1, and the opcode in IR decides what follows. -/
theorem microStep_dispatch
    (h : m.control sketchConfig =
      { nextState := next, aluHi := true, drAlu := true, ldPc := true, opTest := true }) :
    microStep sketchConfig m = .next
      { m with arch := m.arch.setPc (m.latchA + 1#32), ustate := seqStart sketchConfig (fieldOp m.ir) } :=
  microStep_of_runs h le_rfl nofun (m.nextUState_opTest sketchConfig rfl rfl)

theorem microStep_loadAfromRY (h : m.control sketchConfig = loadAfromRY next) :
    microStep sketchConfig m = .next { m with latchA := m.arch.readReg (fieldRY m.ir), ustate := next } :=
  microStep_of_linked h rfl rfl le_rfl nofun

theorem microStep_loadBfromRZ
    (h : m.control sketchConfig = { nextState := next, regSelHi := true, drReg := true, ldB := true }) :
    microStep sketchConfig m = .next { m with latchB := m.arch.readReg (fieldRZ m.ir), ustate := next } :=
  microStep_of_linked h rfl rfl le_rfl nofun

theorem microStep_loadBfromOffset (h : m.control sketchConfig = loadBfromOffset next) :
    microStep sketchConfig m = .next { m with latchB := sext20 (field20 m.ir), ustate := next } :=
  microStep_of_linked h rfl rfl le_rfl nofun

theorem microStep_loadAfromPc (h : m.control sketchConfig = loadAfromPc next) :
    microStep sketchConfig m = .next { m with latchA := m.arch.pc, ustate := next } :=
  microStep_of_linked h rfl rfl le_rfl nofun

theorem microStep_aluToMar (h : m.control sketchConfig = { nextState := next, drAlu := true, ldMar := true }) :
    microStep sketchConfig m = .next { m with mar := m.latchA + m.latchB, ustate := next } :=
  microStep_of_linked h rfl rfl le_rfl nofun

theorem microStep_aluToPc (h : m.control sketchConfig = { nextState := next, drAlu := true, ldPc := true }) :
    microStep sketchConfig m = .next { m with arch := m.arch.setPc (m.latchA + m.latchB), ustate := next } :=
  microStep_of_linked h rfl rfl le_rfl nofun

/-- Drive the PC and write RX: the link of a JALR. -/
theorem microStep_pcToRX (h : m.control sketchConfig = { nextState := next, drPc := true, wrReg := true }) :
    microStep sketchConfig m = .next
      { m with arch := m.arch.writeReg (fieldRX m.ir) m.arch.pc, ustate := next } :=
  microStep_of_linked h rfl rfl le_rfl nofun

/-- Drive RY and load the PC: the jump of a JALR. -/
theorem microStep_RYtoPc
    (h : m.control sketchConfig = { nextState := next, regSelLo := true, drReg := true, ldPc := true }) :
    microStep sketchConfig m = .next
      { m with arch := m.arch.setPc (m.arch.readReg (fieldRY m.ir)), ustate := next } :=
  microStep_of_linked h rfl rfl le_rfl nofun

/-- Drive RX and write the word the MAR names: the store of a STR. -/
theorem microStep_RXtoMem (h : m.control sketchConfig = { nextState := next, drReg := true, wrMem := true }) :
    microStep sketchConfig m = .next
      { m with arch := m.arch.memWrite m.mar (m.arch.readReg (fieldRX m.ir)), ustate := next } :=
  microStep_of_linked h rfl rfl le_rfl nofun

/-- The state with a value written to a register and described by the flags, as a microstate with WrREG and LdCC
leaves it. -/
def State.writeResult (s : State) (dr : RegNum) (v : Word) : State := (s.writeReg dr v).setCC v

theorem microStep_memToRX
    (h : m.control sketchConfig = { nextState := next, drMem := true, wrReg := true, ldCc := true }) :
    microStep sketchConfig m = .next
      { m with arch := m.arch.writeResult (fieldRX m.ir) (m.arch.memRead m.mar), ustate := next } :=
  microStep_of_linked h rfl rfl le_rfl nofun

theorem microStep_aluToDr {hi lo : Bool} (h : m.control sketchConfig = aluToDr hi lo) :
    microStep sketchConfig m = .next
      { m with
        arch := m.arch.writeResult (fieldRX m.ir) (aluResult .a hi lo m.latchA m.latchB)
        ustate := sketchFetch } :=
  microStep_of_linked h rfl rfl le_rfl nofun

/-- CCMatch decides what follows the test of a BR. -/
theorem microStep_chkCc (h : m.control sketchConfig = { nextState := next, chkCc := true }) :
    microStep sketchConfig m = .next { m with ustate := ccStart sketchConfig m.ccMatchBit } :=
  microStep_of_runs h (Nat.zero_le 1) nofun (m.nextUState_chkCc sketchConfig rfl rfl)

/-- The HALT microstate names itself (R172). -/
theorem microStep_sketchHalt (h : m.ustate = sketchHalt) : microStep sketchConfig m = .next m := by
  have hstep : microStep sketchConfig m = .next { m with ustate := sketchHalt } :=
    microStep_of_linked (sketch_at 32 h) rfl rfl (Nat.zero_le 1) nofun
  rw [hstep, ← h]

end Microstates

/-! ### Coming back to FETCH for the first time (R170) -/

/-- From the first micro state the clocks, one more than `n`, lead to the second, which is at FETCH as none between
them is. -/
inductive ReturnsAfter (cfg : MicroConfig) : Nat → MicroState → MicroState → Prop
  | last {m m' : MicroState} (hstep : microStep cfg m = .next m') (hfetch : m'.ustate = cfg.fetchState) :
      ReturnsAfter cfg 0 m m'
  | clock {n : Nat} {m m₁ m' : MicroState} (hstep : microStep cfg m = .next m₁)
      (haway : (m₁.ustate != cfg.fetchState) = true) (hrest : ReturnsAfter cfg n m₁ m') :
      ReturnsAfter cfg (n + 1) m m'

namespace ReturnsAfter

variable {cfg : MicroConfig} {n : Nat} {m m' : MicroState}

theorem run (h : ReturnsAfter cfg n m m') : microRun cfg (n + 1) m = .next m' := by
  induction h with
  | last hstep => exact microRun_succ 0 hstep
  | clock hstep _ _ ih => rw [microRun_succ _ hstep, ih]

theorem atFetch (h : ReturnsAfter cfg n m m') : m'.ustate = cfg.fetchState := by
  induction h with
  | last _ hfetch => exact hfetch
  | clock _ _ _ ih => exact ih

theorem away_before (h : ReturnsAfter cfg n m m') {j : Nat} (hj : j < n) {mj : MicroState}
    (hrun : microRun cfg (j + 1) m = .next mj) : mj.ustate ≠ cfg.fetchState := by
  induction h generalizing j with
  | last => omega
  | clock hstep haway _ ih =>
    rw [microRun_succ j hstep] at hrun
    cases j with
    | zero => cases hrun; exact bne_iff_ne.mp haway
    | succ j => exact ih (Nat.lt_of_succ_lt_succ hj) hrun

end ReturnsAfter

/-! ### FETCH (R170, R172) -/

/-- The micro machine once FETCH has brought the word at the pc into IR and incremented the pc. -/
def MicroState.fetched (m : MicroState) : MicroState :=
  { m with
    arch := m.arch.advance
    ir := m.arch.fetch
    mar := m.arch.pc
    latchA := m.arch.pc
    ustate := seqStart sketchConfig (fieldOp m.arch.fetch) }

section Fetch

variable {m : MicroState}

/-- The three microstates of FETCH. -/
theorem sketch_fetch (h : m.ustate = sketchFetch) :
    ∃ m₁ m₂, microStep sketchConfig m = .next m₁ ∧ microStep sketchConfig m₁ = .next m₂ ∧
      microStep sketchConfig m₂ = .next m.fetched ∧
      (m₁.ustate = 1#6 ∧ m₁.arch = m.arch) ∧ (m₂.ustate = 2#6 ∧ m₂.arch = m.arch) :=
  ⟨_, _, microStep_pcToMarAndA (sketch_at 0 h), microStep_memToIr (sketch_at 1 rfl),
    microStep_dispatch (sketch_at 2 rfl), ⟨rfl, rfl⟩, rfl, rfl⟩

/-- No opcode is dispatched to FETCH. -/
theorem sketch_seqStart_ne_fetch : ∀ op : Opcode, (seqStart sketchConfig op != sketchFetch) = true := by decide

theorem microRun_fetched (h : m.ustate = sketchFetch) : microRun sketchConfig 3 m = .next m.fetched := by
  obtain ⟨m₁, m₂, h₀, h₁, h₂, -, -⟩ := sketch_fetch h
  rw [microRun_succ 2 h₀, microRun_succ 1 h₁, microRun_succ 0 h₂, microRun_zero]

theorem ReturnsAfter.of_fetched {n : Nat} {m' : MicroState} (h : m.ustate = sketchFetch)
    (hrest : ReturnsAfter sketchConfig n m.fetched m') : ReturnsAfter sketchConfig (n + 3) m m' := by
  obtain ⟨m₁, m₂, h₀, h₁, h₂, ⟨hu₁, -⟩, hu₂, -⟩ := sketch_fetch h
  have haway₁ : (m₁.ustate != sketchFetch) = true := by rw [hu₁]; rfl
  have haway₂ : (m₂.ustate != sketchFetch) = true := by rw [hu₂]; rfl
  exact .clock h₀ haway₁ (.clock h₁ haway₂ (.clock h₂ (sketch_seqStart_ne_fetch _) hrest))

end Fetch

/-! ### The result of an instruction, written after the pc is incremented -/

/-- Writing a register does not look at the pc. -/
theorem State.advance_writeReg (s : State) (r : RegNum) (v : Word) :
    s.advance.writeReg r v = (s.writeReg r v).setPc s.pc1 := by
  by_cases hr : r = 0#4
  · subst hr
    rfl
  · simp only [writeReg, hr, if_false, advance, setPc]

/-- FETCH advances the pc before the result is written, `exec` after it: the same state. -/
theorem State.advance_writeResult (s : State) (dr : RegNum) (v : Word) :
    s.advance.writeResult dr v = s.deliver dr v := by
  have hpc : ((s.writeReg dr v).setCC v).pc1 = s.pc1 := by simp [pc1]
  rw [writeResult, advance_writeReg, deliver, advance, hpc]
  rfl

/-- The same for the link of a JALR and the jump that reads AT after it (D20: log 15). -/
theorem State.advance_link (s : State) (ra tgt : RegNum) :
    (s.advance.writeReg ra s.pc1).setPc ((s.advance.writeReg ra s.pc1).readReg tgt) =
      (s.writeReg ra s.pc1).setPc ((s.writeReg ra s.pc1).readReg tgt) := by
  rw [advance_writeReg]
  rfl

/-- The ALU takes A, D and the distance of a shift from the sign-extended vector, where they stand as in the field
(R86, R163). -/
theorem aluShift_sext20 (v : Word) (vec : Field20) :
    aluShift v (sext20 vec) = shiftValue (shiftA vec) (shiftD vec) v (shiftDist vec) := by
  have hdist : (sext20 vec).extractLsb' 0 5 = shiftDist vec := by
    refine BitVec.eq_of_getLsbD_eq fun i hi => ?_
    rw [shiftDist, BitVec.getLsbD_extractLsb', BitVec.getLsbD_extractLsb', Nat.zero_add,
      getLsbD_sext20 vec (by omega), if_pos (by omega)]
  rw [aluShift, getLsbD_sext20 vec (by decide), getLsbD_sext20 vec (by decide), hdist]
  rfl

/-! ### The microstates of each instruction (R172) -/

/-- Once FETCH has run, the sketch comes back to it in `n + 1` clocks, with the word still in IR and with the effects
`exec` gives the instruction. -/
def sketchExecutes (n : Nat) (m : MicroState) (i : Instr) : Prop :=
  ∃ m', ReturnsAfter sketchConfig n m.fetched m' ∧ m'.ir = m.arch.fetch ∧ exec i m.arch = .next m'.arch

section Instructions

variable {m : MicroState}

/-- An instruction that ends by writing a result has delivered it. -/
theorem sketchExecutes.of_result {n : Nat} {i : Instr} {m' : MicroState} {dr : RegNum} {v v' : Word}
    (hreturns : ReturnsAfter sketchConfig n m.fetched m') (hir : m'.ir = m.arch.fetch)
    (harch : m'.arch = m.arch.advance.writeResult dr v) (hv : v = v')
    (hexec : exec i m.arch = .next (m.arch.deliver dr v')) : sketchExecutes n m i :=
  ⟨m', hreturns, hir, by rw [harch, State.advance_writeResult, hv, hexec]⟩

/-- After FETCH comes the first microstate of the opcode of the fetched word. -/
theorem MicroState.fetched_ustate {op : Opcode} (hop : fieldOp m.arch.fetch = op) :
    m.fetched.ustate = seqStart sketchConfig op := congrArg (seqStart sketchConfig) hop

theorem sketch_add (hop : fieldOp m.arch.fetch = 0b0000#4) :
    sketchExecutes 2 m (.add (fieldRX m.arch.fetch) (fieldRY m.arch.fetch) (fieldRZ m.arch.fetch)) :=
  .of_result
    (.clock (microStep_loadAfromRY (sketch_at 3 (m.fetched_ustate hop))) rfl
      (.clock (microStep_loadBfromRZ (sketch_at 4 rfl)) rfl (.last (microStep_aluToDr (sketch_at 5 rfl)) rfl)))
    rfl rfl rfl (exec_add ..)

theorem sketch_addi (hop : fieldOp m.arch.fetch = 0b0001#4) :
    sketchExecutes 2 m (.addi (fieldRX m.arch.fetch) (fieldRY m.arch.fetch) (field20 m.arch.fetch)) :=
  .of_result
    (.clock (microStep_loadAfromRY (sketch_at 6 (m.fetched_ustate hop))) rfl
      (.clock (microStep_loadBfromOffset (sketch_at 7 rfl)) rfl (.last (microStep_aluToDr (sketch_at 8 rfl)) rfl)))
    rfl rfl rfl (exec_addi ..)

theorem sketch_nand (hop : fieldOp m.arch.fetch = 0b0010#4) :
    sketchExecutes 2 m (.nand (fieldRX m.arch.fetch) (fieldRY m.arch.fetch) (fieldRZ m.arch.fetch)) :=
  .of_result
    (.clock (microStep_loadAfromRY (sketch_at 9 (m.fetched_ustate hop))) rfl
      (.clock (microStep_loadBfromRZ (sketch_at 10 rfl)) rfl (.last (microStep_aluToDr (sketch_at 11 rfl)) rfl)))
    rfl rfl rfl (exec_nand ..)

theorem sketch_lea (hop : fieldOp m.arch.fetch = 0b0110#4) :
    sketchExecutes 2 m (.lea (fieldRX m.arch.fetch) (field20 m.arch.fetch)) :=
  .of_result
    (.clock (microStep_loadAfromPc (sketch_at 22 (m.fetched_ustate hop))) rfl
      (.clock (microStep_loadBfromOffset (sketch_at 23 rfl)) rfl (.last (microStep_aluToDr (sketch_at 24 rfl)) rfl)))
    rfl rfl rfl (exec_lea ..)

theorem sketch_shf (hop : fieldOp m.arch.fetch = 0b1000#4) :
    sketchExecutes 2 m
      (.shf (fieldRX m.arch.fetch) (fieldRY m.arch.fetch) (shiftA (field20 m.arch.fetch))
        (shiftD (field20 m.arch.fetch)) (shiftDist (field20 m.arch.fetch))) :=
  .of_result
    (.clock (microStep_loadAfromRY (sketch_at 29 (m.fetched_ustate hop))) rfl
      (.clock (microStep_loadBfromOffset (sketch_at 30 rfl)) rfl (.last (microStep_aluToDr (sketch_at 31 rfl)) rfl)))
    rfl rfl (aluShift_sext20 ..) (exec_shf ..)

theorem sketch_ldr (hop : fieldOp m.arch.fetch = 0b0101#4) :
    sketchExecutes 3 m (.ldr (fieldRX m.arch.fetch) (fieldRY m.arch.fetch) (field20 m.arch.fetch)) :=
  .of_result
    (.clock (microStep_loadAfromRY (sketch_at 18 (m.fetched_ustate hop))) rfl
      (.clock (microStep_loadBfromOffset (sketch_at 19 rfl)) rfl
        (.clock (microStep_aluToMar (sketch_at 20 rfl)) rfl (.last (microStep_memToRX (sketch_at 21 rfl)) rfl))))
    rfl rfl rfl (exec_ldr ..)

theorem sketch_str (hop : fieldOp m.arch.fetch = 0b0111#4) :
    sketchExecutes 3 m (.str (fieldRX m.arch.fetch) (fieldRY m.arch.fetch) (field20 m.arch.fetch)) :=
  ⟨_, .clock (microStep_loadAfromRY (sketch_at 25 (m.fetched_ustate hop))) rfl
    (.clock (microStep_loadBfromOffset (sketch_at 26 rfl)) rfl
      (.clock (microStep_aluToMar (sketch_at 27 rfl)) rfl (.last (microStep_RXtoMem (sketch_at 28 rfl)) rfl))),
    rfl, exec_str ..⟩

theorem sketch_jalr (hop : fieldOp m.arch.fetch = 0b0100#4) :
    sketchExecutes 1 m (.jalr (fieldRX m.arch.fetch) (fieldRY m.arch.fetch)) :=
  ⟨_, .clock (microStep_pcToRX (sketch_at 16 (m.fetched_ustate hop))) rfl
    (.last (microStep_RYtoPc (sketch_at 17 rfl)) rfl),
    rfl, (exec_jalr ..).trans (congrArg Host.Outcome.next (m.arch.advance_link _ _).symm)⟩

/-- The test of a BR sees the flags and the n, z, p bits the instruction names (R167). -/
theorem sketch_br_test (hop : fieldOp m.arch.fetch = 0b0011#4) {taken : Bool}
    (htaken : ccMatch (fieldN m.arch.fetch) (fieldZ m.arch.fetch) (fieldP m.arch.fetch) m.arch.flags = taken) :
    microStep sketchConfig m.fetched = .next { m.fetched with ustate := ccStart sketchConfig taken } := by
  rw [← htaken]
  exact microStep_chkCc (sketch_at 12 (m.fetched_ustate hop))

theorem sketch_br (hop : fieldOp m.arch.fetch = 0b0011#4) :
    ∃ n ≤ 3, sketchExecutes n m
      (.br (fieldN m.arch.fetch) (fieldZ m.arch.fetch) (fieldP m.arch.fetch) (field20 m.arch.fetch)) := by
  cases htaken : ccMatch (fieldN m.arch.fetch) (fieldZ m.arch.fetch) (fieldP m.arch.fetch) m.arch.flags with
  | false =>
    refine ⟨0, by decide, _, .last (sketch_br_test hop htaken) rfl, rfl, ?_⟩
    rw [exec_br, htaken]
    rfl
  | true =>
    refine ⟨3, by decide, _, .clock (sketch_br_test hop htaken) rfl
      (.clock (microStep_loadAfromPc (sketch_at 13 rfl)) rfl
        (.clock (microStep_loadBfromOffset (sketch_at 14 rfl)) rfl
          (.last (microStep_aluToPc (sketch_at 15 rfl)) rfl))), rfl, ?_⟩
    rw [exec_br, htaken]
    rfl

/-- Every instruction but HALT takes one to four microstates of the sketch. -/
theorem sketch_executes {i : Instr} (hdec : decode m.arch.fetch = .ok i) (hne : i ≠ .halt) :
    ∃ n ≤ 3, sketchExecutes n m i := by
  cases decode_eq_iff.mp hdec with
  | add hop => exact ⟨2, by decide, sketch_add hop⟩
  | addi hop => exact ⟨2, by decide, sketch_addi hop⟩
  | nand hop => exact ⟨2, by decide, sketch_nand hop⟩
  | br hop => exact sketch_br hop
  | jalr hop => exact ⟨1, by decide, sketch_jalr hop⟩
  | ldr hop => exact ⟨3, by decide, sketch_ldr hop⟩
  | lea hop => exact ⟨2, by decide, sketch_lea hop⟩
  | str hop => exact ⟨3, by decide, sketch_str hop⟩
  | shf hop => exact ⟨2, by decide, sketch_shf hop⟩
  | halt => exact absurd rfl hne

end Instructions

/-- Settles O53: three clocks for FETCH, and those of the instruction. -/
theorem sketchMicroprogramImplementsInstructions : Obligations.SketchMicroprogramImplementsInstructions := by
  intro m i hm hdec hne
  obtain ⟨n, hn, m', hreturns, hir, hexec⟩ := sketch_executes hdec hne
  have hall := hreturns.of_fetched hm
  exact ⟨n + 3 + 1, m', by omega, by omega, hall.run, hall.atFetch, hir, hexec⟩

/-! ### Runs of whole instructions (R18) -/

/-- A run from a halted machine ends, if it does, in a halted machine: it has no step (R18). -/
theorem run_halted {k : Nat} {s t : State} (hs : s.halted = true) (h : Sys2Proof.core.run k s = .next t) :
    t.halted = true :=
  run_induction (P := fun u => u.halted = true) (fun _ u hhalted hstep =>
    absurd hstep (step_ne_next_of_halted hhalted u)) hs h

/-- Settles O56, instruction by instruction: none of the run is a HALT, after which nothing would run. -/
theorem sketchCarriesOutRuns : Obligations.SketchCarriesOutRuns := by
  intro k
  induction k with
  | zero =>
    intro m t hm hrun _
    cases hrun
    exact ⟨0, m, le_rfl, rfl, hm, rfl⟩
  | succ k ih =>
    intro m t hm hrun hrunning
    obtain ⟨s₁, hstep, hrest⟩ := run_succ_inv hrun
    obtain ⟨-, i, hdec, hexec⟩ := step_next_inv hstep
    have hne : i ≠ .halt := by
      rintro rfl
      cases hexec
      rw [run_halted m.arch.halt_halted hrest] at hrunning
      cases hrunning
    obtain ⟨n, m₁, hn, -, hrun₁, hfetch, -, hexec₁⟩ := sketchMicroprogramImplementsInstructions m i hm hdec hne
    have harch : m₁.arch = s₁ := Host.Outcome.next.inj (hexec₁.symm.trans hexec)
    obtain ⟨n', m', hn', hrun', hfetch', ht⟩ := ih m₁ t hfetch (harch ▸ hrest) hrunning
    exact ⟨n + n', m', by omega, (microRun_add n n' hrun₁).trans hrun', hfetch', ht⟩

/-! ### HALT (R150, R172) -/

section Halt

variable {m : MicroState}

/-- The HALT microstate is never left. -/
theorem microRun_sketchHalt (h : m.ustate = sketchHalt) (k : Nat) : microRun sketchConfig k m = .next m := by
  induction k with
  | zero => rfl
  | succ k ih => rw [microRun_succ k (microStep_sketchHalt h), ih]

/-- A fetched HALT dispatches to the HALT microstate. -/
theorem fetched_ustate_of_halt (hdec : decode m.arch.fetch = .ok .halt) : m.fetched.ustate = sketchHalt := by
  cases decode_eq_iff.mp hdec with
  | halt hop => exact m.fetched_ustate hop

/-- Three clocks after a HALT is fetched from, the micro machine no longer changes. -/
theorem microRun_fetched_halt (hm : m.ustate = sketchFetch) (hdec : decode m.arch.fetch = .ok .halt) (k : Nat) :
    microRun sketchConfig (3 + k) m = .next m.fetched := by
  rw [microRun_add 3 k (microRun_fetched hm), microRun_sketchHalt (fetched_ustate_of_halt hdec)]

/-- FETCH changes nothing of the architectural state but the pc. -/
theorem MicroState.fetched_frame (m : MicroState) :
    m.arch.sameRegs m.fetched.arch ∧ m.arch.sameFlags m.fetched.arch ∧ m.arch.sameMemory m.fetched.arch := by
  obtain ⟨hregs, hflags, hmem, -⟩ := m.arch.setPc_frame m.arch.pc1
  exact ⟨hregs, hflags, hmem⟩

end Halt

/-- Settles O54: FETCH leads to the HALT microstate, which is never left. -/
theorem sketchMicroprogramHaltNeverFetches : Obligations.SketchMicroprogramHaltNeverFetches :=
  fun m hm hdec k => ⟨m.fetched, microRun_fetched_halt hm hdec k, fetched_ustate_of_halt hdec, m.fetched_frame⟩

/-! ### The sketch is a microprogram of the machine (R170, D23) -/

theorem State.frame_refl (s : State) : s.sameRegs s ∧ s.sameFlags s ∧ s.sameMemory s :=
  ⟨fun _ => ⟨rfl, rfl⟩, ⟨rfl, rfl⟩, sameMemory_of_eq rfl⟩

/-- From a HALT on, no clock leads to FETCH and registers, flags and memory stay: in the second and third microstate of
FETCH, and then in the HALT microstate. -/
theorem sketch_halt_away {m : MicroState} (hm : m.ustate = sketchFetch) (hdec : decode m.arch.fetch = .ok .halt)
    (k : Nat) : ∃ m', microRun sketchConfig (k + 1) m = .next m' ∧ m'.ustate ≠ sketchFetch ∧
      m.arch.sameRegs m'.arch ∧ m.arch.sameFlags m'.arch ∧ m.arch.sameMemory m'.arch := by
  obtain ⟨m₁, m₂, h₀, h₁, -, ⟨hu₁, harch₁⟩, hu₂, harch₂⟩ := sketch_fetch hm
  match k with
  | 0 =>
    have hrun : microRun sketchConfig 1 m = .next m₁ := microRun_succ 0 h₀
    exact ⟨m₁, hrun, by rw [hu₁]; decide, harch₁ ▸ m.arch.frame_refl⟩
  | 1 =>
    have hrun : microRun sketchConfig 2 m = .next m₂ := (microRun_succ 1 h₀).trans (microRun_succ 0 h₁)
    exact ⟨m₂, hrun, by rw [hu₂]; decide, harch₂ ▸ m.arch.frame_refl⟩
  | k + 2 =>
    have hrun := microRun_fetched_halt hm hdec k
    rw [show 3 + k = k + 2 + 1 by omega] at hrun
    exact ⟨m.fetched, hrun, by rw [fetched_ustate_of_halt hdec]; decide, m.fetched_frame⟩

/-- Settles O55: the ROMs follow the cycle, and FETCH, the instructions and HALT do what `Implements` asks. -/
theorem sketchIsAMicroprogramOfTheMachine : Obligations.SketchIsAMicroprogramOfTheMachine where
  cycle := sketch_followsCycle
  fetch := fun m hm => ⟨2, m.fetched, microRun_fetched hm, rfl, rfl⟩
  instruction := by
    intro m i t hm hdec hne hexec
    obtain ⟨n, -, m', hreturns, -, hexec'⟩ := sketch_executes hdec hne
    have harch : m'.arch = t := Host.Outcome.next.inj (hexec'.symm.trans hexec)
    have hall := hreturns.of_fetched hm
    exact ⟨n + 3, m', hall.run, hall.atFetch, harch ▸ rfl, fun _ hj _ => hall.away_before hj⟩
  halt := fun _ hm hdec => sketch_halt_away hm hdec

end Sys2Proof.Machine
end

section
/-! PROOFS. The statements of 60_exceptions.md: the outcomes of a step (R190, R191, R193), that what has been written
stays written, and that a run of clean steps does not depend on unwritten state (R197, R217, R218, R224, R225). -/

namespace Sys2Proof.Machine

/-! ### A run that reads nothing unwritten (R197, R224, R225: log 19) -/

/-- The conditions of a clean step, apart: it runs an instruction placed in memory, which finds all it reads written. -/
theorem State.cleanStep_iff {s : State} :
    s.cleanStep = true ↔
      s.halted = false ∧ s.memReady s.pc = true ∧ ∃ i, decode s.fetch = .ok i ∧ instrReady i s = true := by
  cases hdec : decode s.fetch <;> simp [cleanStep, hdec, and_assoc]

/-- `k + 1` clean steps: a clean first step, and `k` clean steps from where it leads. -/
theorem State.cleanFor_succ {s t : State} (k : Nat) (h : step s = .next t) :
    State.cleanFor (k + 1) s = true ↔ s.cleanStep = true ∧ State.cleanFor k t = true := by
  simp [cleanFor, h]

namespace State.completes

variable {s s' t : State}

/-! #### What is written reads the same in a completion -/

theorem pc1_eq (h : s.completes s') (hrun : s.halted = false) : s'.pc1 = s.pc1 := congrArg (· + 1#32) (h.pc hrun)

theorem pcRelative_eq (h : s.completes s') (hrun : s.halted = false) (off : Field20) :
    s'.pcRelative off = s.pcRelative off := congrArg (· + sext20 off) (h.pc1_eq hrun)

theorem readReg_eq (h : s.completes s') {r : RegNum} (hr : s.regReady r = true) : s'.readReg r = s.readReg r :=
  (h.regs r hr).2

theorem baseAddress_eq (h : s.completes s') {baseR : RegNum} (hb : s.regReady baseR = true) (off : Field20) :
    s'.baseAddress baseR off = s.baseAddress baseR off := congrArg (· + sext20 off) (h.readReg_eq hb)

theorem memRead_eq (h : s.completes s') {addr : Word} (ha : s.memReady addr = true) :
    s'.memRead addr = s.memRead addr := by
  obtain ⟨w, hw⟩ := Option.isSome_iff_exists.mp ha
  simp only [memRead, wordAt, hw, h.memory _ w hw]

theorem fetch_eq (h : s.completes s') (hrun : s.halted = false) (hready : s.memReady s.pc = true) :
    s'.fetch = s.fetch := by
  rw [fetch, fetch, h.pc hrun, h.memRead_eq hready]

/-- CCMatch is the same: the flags are written, or no flag is tested (R121). -/
theorem ccMatch_eq (h : s.completes s') {n z p : Bool} (hready : s.ccWritten = true ∨ (n || z || p) = false) :
    ccMatch n z p s'.flags = ccMatch n z p s.flags := by
  rcases hready with hcc | hnone
  · rw [(h.flags hcc).2]
  · obtain ⟨⟨rfl, rfl⟩, rfl⟩ : (n = false ∧ z = false) ∧ p = false := by simpa using hnone
    rfl

/-! #### The same update in both states keeps one the completion of the other -/

theorem writeReg (h : s.completes s') (r : RegNum) {v v' : Word} (hv : v' = v) :
    (s.writeReg r v).completes (s'.writeReg r v') where
  pc := by simpa using h.pc
  halted := by simpa using h.halted
  draws := by simpa using h.draws
  regs := fun q hq => by
    subst hv
    simp only [regReady_writeReg, readReg_writeReg, Bool.or_eq_true, decide_eq_true_eq] at hq ⊢
    rcases hq with rfl | hq
    · by_cases hzero : q = 0#4 <;> simp [hzero]
    · obtain ⟨hready, hread⟩ := h.regs q hq
      exact ⟨.inr hready, by rw [hread]⟩
  flags := by simpa using h.flags
  memory := by simpa using h.memory

theorem setCC (h : s.completes s') {v v' : Word} (hv : v' = v) : (s.setCC v).completes (s'.setCC v') where
  pc := h.pc
  halted := h.halted
  draws := h.draws
  regs := h.regs
  flags := fun _ => ⟨rfl, congrArg Flags.ofValue hv⟩
  memory := h.memory

theorem memWrite (h : s.completes s') {addr addr' v v' : Word} (ha : addr' = addr) (hv : v' = v) :
    (s.memWrite addr v).completes (s'.memWrite addr' v') where
  pc := h.pc
  halted := h.halted
  draws := h.draws
  regs := h.regs
  flags := h.flags
  memory := fun a w hw => by
    subst ha hv
    simp only [memWrite_mem, readCell_writeWord] at hw ⊢
    split at hw
    · next hstored => rw [if_pos hstored, hw]
    · next hother => rw [if_neg hother, h.memory a w hw]

theorem setPc (h : s.completes s') {target target' : Word} (ht : s.halted = false → target' = target) :
    (s.setPc target).completes (s'.setPc target') where
  pc := ht
  halted := h.halted
  draws := h.draws
  regs := h.regs
  flags := h.flags
  memory := h.memory

theorem advance (h : s.completes s') : s.advance.completes s'.advance := h.setPc h.pc1_eq

theorem deliver (h : s.completes s') (dr : RegNum) {r r' : Word} (hr : r' = r) :
    (s.deliver dr r).completes (s'.deliver dr r') := ((h.writeReg dr hr).setCC hr).advance

/-- Two machines that halt are not compared on the pc (R151, log 16). -/
theorem halt (h : s.completes s') : s.halt.completes s'.halt where
  pc := nofun
  halted := rfl
  draws := congrArg (· + 1) h.draws
  regs := h.regs
  flags := h.flags
  memory := h.memory

/-! #### Instructions, steps and runs -/

/-- An instruction that finds all it reads written computes the same in both states, so it makes the same update. -/
theorem exec (h : s.completes s') (hrun : s.halted = false) {i : Instr} (hready : instrReady i s = true)
    (hexec : Machine.exec i s = .next t) : ∃ t', Machine.exec i s' = .next t' ∧ t.completes t' := by
  cases i with
  | add dr sr1 sr2 =>
    obtain ⟨h1, h2⟩ := Bool.and_eq_true_iff.mp hready
    cases hexec
    exact ⟨_, rfl, h.deliver dr (by rw [h.readReg_eq h1, h.readReg_eq h2])⟩
  | addi dr sr1 imm =>
    cases hexec
    exact ⟨_, rfl, h.deliver dr (by rw [h.readReg_eq hready])⟩
  | nand dr sr1 sr2 =>
    obtain ⟨h1, h2⟩ := Bool.and_eq_true_iff.mp hready
    cases hexec
    exact ⟨_, rfl, h.deliver dr (by rw [h.readReg_eq h1, h.readReg_eq h2])⟩
  | br n z p off =>
    have hflags : s.ccWritten = true ∨ (n || z || p) = false := by simpa [instrReady] using hready
    cases hexec
    exact ⟨_, rfl, h.setPc fun _ => by rw [h.ccMatch_eq hflags, h.pcRelative_eq hrun, h.pc1_eq hrun]⟩
  | jalr ra tgt =>
    have hlinked := h.writeReg ra (h.pc1_eq hrun)
    cases hexec
    exact ⟨_, rfl, hlinked.setPc fun _ => hlinked.readReg_eq hready⟩
  | ldr dr baseR off =>
    obtain ⟨hbase, hword⟩ := Bool.and_eq_true_iff.mp hready
    cases hexec
    exact ⟨_, rfl, h.deliver dr (by rw [h.baseAddress_eq hbase, h.memRead_eq hword])⟩
  | lea dr off =>
    cases hexec
    exact ⟨_, rfl, h.deliver dr (h.pcRelative_eq hrun off)⟩
  | str sr baseR off =>
    obtain ⟨hsr, hbase⟩ := Bool.and_eq_true_iff.mp hready
    cases hexec
    exact ⟨_, rfl, (h.memWrite (h.baseAddress_eq hbase off) (h.readReg_eq hsr)).advance⟩
  | shf dr sr1 arith right dist =>
    cases hexec
    exact ⟨_, rfl, h.deliver dr (by rw [h.readReg_eq hready])⟩
  | halt =>
    cases hexec
    exact ⟨_, rfl, h.halt⟩

/-- A clean step fetches the same word in both states and runs the same instruction. -/
theorem step (h : s.completes s') (hclean : s.cleanStep = true) (hstep : Machine.step s = .next t) :
    ∃ t', Machine.step s' = .next t' ∧ t.completes t' := by
  obtain ⟨hrun, hfetch, i, hdec, hready⟩ := cleanStep_iff.mp hclean
  have hdec' : decode s'.fetch = .ok i := by rw [h.fetch_eq hrun hfetch, hdec]
  rw [step_of_decode hrun hdec] at hstep
  rw [step_of_decode (h.halted.trans hrun) hdec']
  exact h.exec hrun hready hstep

end State.completes

/-- Settles O41, by induction on the number of steps: each clean step leads the two states to two of which one again
completes the other. -/
theorem cleanRunsIgnoreUnwrittenState : Obligations.CleanRunsIgnoreUnwrittenState := by
  intro k
  induction k with
  | zero =>
    intro s s' t _ h hrun
    cases hrun
    exact ⟨s', rfl, h⟩
  | succ k ih =>
    intro s s' t hclean h hrun
    obtain ⟨u, hstep, hrest⟩ := run_succ_inv hrun
    obtain ⟨hfirst, hlater⟩ := (State.cleanFor_succ k hstep).mp hclean
    obtain ⟨u', hstep', hu⟩ := h.step hfirst hstep
    rw [run_succ k hstep']
    exact ih u u' t hlater hu hrest

/-! ### What has been written stays written (log 1, log 2, log 3) -/

/-- A register write makes no register unwritten. -/
theorem State.regReady_writeReg_of_ready {s : State} {q : RegNum} (r : RegNum) (v : Word) (hq : s.regReady q = true) :
    (s.writeReg r v).regReady q = true := by
  simp [regReady_writeReg, hq]

/-- A store makes no word unwritten. -/
theorem readCell_writeWord_isSome {m : Memory} {a : Nat} (addr v : Word) (ha : (readCell m a).isSome = true) :
    (readCell (writeWord m addr v) a).isSome = true := by
  rw [readCell_writeWord]
  split
  · rfl
  · exact ha

theorem exec_keeps_regReady {i : Instr} {s t : State} (h : exec i s = .next t) {q : RegNum}
    (hq : s.regReady q = true) : t.regReady q = true := by
  cases exec_effect h with
  | deliver r => exact State.regReady_writeReg_of_ready _ r hq
  | br => exact hq
  | jalr => exact State.regReady_writeReg_of_ready _ s.pc1 hq
  | str => exact hq
  | halt => exact hq

theorem exec_keeps_ccWritten {i : Instr} {s t : State} (h : exec i s = .next t) (hcc : s.ccWritten = true) :
    t.ccWritten = true := by
  cases exec_effect h with
  | deliver => rfl
  | br => exact hcc
  | jalr => exact (s.writeReg_ccWritten ..).trans hcc
  | str => exact hcc
  | halt => exact hcc

theorem exec_keeps_readCell_isSome {i : Instr} {s t : State} (h : exec i s = .next t) {a : Nat}
    (ha : (readCell s.mem a).isSome = true) : (readCell t.mem a).isSome = true := by
  cases exec_effect h with
  | deliver => rwa [State.deliver_mem]
  | br => exact ha
  | jalr => rwa [State.setPc_mem, State.writeReg_mem]
  | str addr v => exact readCell_writeWord_isSome addr v ha
  | halt => exact ha

/-- Settles O40: a step that answers a next state is the `exec` of one instruction, which keeps each of the three. -/
theorem writtenStaysWritten : Obligations.WrittenStaysWritten := by
  intro s t h
  obtain ⟨-, i, -, hexec⟩ := step_next_inv h
  exact ⟨fun _ => exec_keeps_regReady hexec, exec_keeps_ccWritten hexec, fun _ => exec_keeps_readCell_isSome hexec⟩

/-! ### The outcomes of a step (R190, R191, R193) -/

/-- Settles O15: the halted bit and the verdict of the decoder select the outcome, and every instruction completes. -/
theorem stepHasNoOtherOutcome : Obligations.StepHasNoOtherOutcome := by
  intro s
  cases hrun : s.halted with
  | true => exact .inr (.inr (.inr ⟨rfl, step_of_halted hrun⟩))
  | false =>
    cases hdec : decode s.fetch with
    | ok i =>
      obtain ⟨t, ht⟩ := exec_completes i s
      exact .inl ⟨i, t, rfl, rfl, ht, (step_of_decode hrun hdec).trans ht⟩
    | error r =>
      have hstep := step_of_reject hrun hdec
      cases r with
      | undefinedOpcode => exact .inr (.inl ⟨rfl, rfl, hstep⟩)
      | reservedBrBits => exact .inr (.inr (.inl ⟨rfl, rfl, hstep⟩))

end Sys2Proof.Machine
end

section
/-! PROOFS. The statements of 70_reset_and_hazards.md: the state after reset (R215 to R219), the image the host places
(R222), the invariant along every run, and the result of a finished run (R223). -/

namespace Sys2Proof.Machine

/-! ### A finished run has one result (R223: log 19) -/

namespace State.completes

variable {s s' : State}

/-- A word that is written is written in a completion too. -/
theorem memReady (h : s.completes s') {addr : Word} (ha : s.memReady addr = true) : s'.memReady addr = true := by
  obtain ⟨w, hw⟩ := Option.isSome_iff_exists.mp ha
  exact Option.isSome_iff_exists.mpr ⟨w, h.memory _ w hw⟩

theorem regReady (h : s.completes s') {r : RegNum} (hr : s.regReady r = true) : s'.regReady r = true := (h.regs r hr).1

/-- What an instruction reads is written in a completion too, and an LDR reads the same word there. -/
theorem instrReady (h : s.completes s') (hrun : s.halted = false) {i : Instr}
    (hi : Machine.instrReady i s = true) : Machine.instrReady i s' = true := by
  cases i with
  | add dr sr1 sr2 =>
    obtain ⟨h1, h2⟩ := Bool.and_eq_true_iff.mp hi
    exact Bool.and_eq_true_iff.mpr ⟨h.regReady h1, h.regReady h2⟩
  | addi dr sr1 imm => exact h.regReady hi
  | nand dr sr1 sr2 =>
    obtain ⟨h1, h2⟩ := Bool.and_eq_true_iff.mp hi
    exact Bool.and_eq_true_iff.mpr ⟨h.regReady h1, h.regReady h2⟩
  | br n z p off => exact Bool.or_eq_true_iff.mpr ((Bool.or_eq_true_iff.mp hi).imp_left fun hcc => (h.flags hcc).1)
  | jalr ra tgt => exact (h.writeReg ra (h.pc1_eq hrun)).regReady hi
  | ldr dr baseR off =>
    obtain ⟨hbase, hword⟩ := Bool.and_eq_true_iff.mp hi
    refine Bool.and_eq_true_iff.mpr ⟨h.regReady hbase, ?_⟩
    rw [h.baseAddress_eq hbase]
    exact h.memReady hword
  | lea dr off => rfl
  | str sr baseR off =>
    obtain ⟨hsr, hbase⟩ := Bool.and_eq_true_iff.mp hi
    exact Bool.and_eq_true_iff.mpr ⟨h.regReady hsr, h.regReady hbase⟩
  | shf dr sr1 arith right dist => exact h.regReady hi
  | halt => rfl

/-- A clean step is clean in every completion: it fetches the same written word, whose instruction finds all it reads
written. -/
theorem cleanStep (h : s.completes s') (hclean : s.cleanStep = true) : s'.cleanStep = true := by
  obtain ⟨hrun, hfetch, i, hdec, hready⟩ := cleanStep_iff.mp hclean
  refine cleanStep_iff.mpr ⟨h.halted.trans hrun, ?_, i, ?_, h.instrReady hrun hready⟩
  · rw [h.pc hrun]
    exact h.memReady hfetch
  · rw [h.fetch_eq hrun hfetch, hdec]

/-- Clean steps are clean from every completion: each one leads to a completion of the state it leads to. -/
theorem cleanFor (h : s.completes s') {k : Nat} {t : State} (hclean : State.cleanFor k s = true)
    (hrun : Sys2Proof.core.run k s = .next t) : State.cleanFor k s' = true := by
  induction k generalizing s s' with
  | zero => rfl
  | succ k ih =>
    obtain ⟨u, hstep, hrest⟩ := run_succ_inv hrun
    obtain ⟨hfirst, hlater⟩ := (cleanFor_succ k hstep).mp hclean
    obtain ⟨u', hstep', hu⟩ := h.step hfirst hstep
    exact (cleanFor_succ k hstep').mpr ⟨h.cleanStep hfirst, ih hu hlater hrest⟩

end State.completes

/-- Settles O42: the run goes the same way from a completion (O41), its steps are clean there too, and it halts. -/
theorem finishedRunsHaveOneResult : Obligations.FinishedRunsHaveOneResult := by
  intro k s s' t hfin h
  obtain ⟨t', hrun', ht⟩ := cleanRunsIgnoreUnwrittenState k s s' t hfin.clean h hfin.run
  exact ⟨t', ⟨hrun', ht.halted.trans hfin.halted, h.cleanFor hfin.clean hfin.run⟩, ht⟩

/-! ### The image the host places (R222: log 4, log 5) -/

@[simp] theorem State.loadImage_nil (s : State) (base : Word) : s.loadImage base [] = s := rfl

@[simp] theorem State.loadImage_cons (s : State) (base w : Word) (rest : List Word) :
    s.loadImage base (w :: rest) = (s.memWrite base w).loadImage (base + 1#32) rest := rfl

/-- Placing an image leaves the pc alone. -/
@[simp] theorem State.loadImage_pc (s : State) (base : Word) (image : List Word) :
    (s.loadImage base image).pc = s.pc := by
  induction image generalizing s base with
  | nil => rfl
  | cons w rest ih => rw [loadImage_cons, ih, memWrite_pc]

/-- Placing an image leaves a running machine running. -/
@[simp] theorem State.loadImage_halted (s : State) (base : Word) (image : List Word) :
    (s.loadImage base image).halted = s.halted := by
  induction image generalizing s base with
  | nil => rfl
  | cons w rest ih => rw [loadImage_cons, ih, memWrite_halted]

/-- The address of a word of the rest of an image, counted from the base of the rest and of the whole. -/
theorem imageAddress_succ (base : Word) (k : Nat) :
    base + 1#32 + BitVec.ofNat 32 k = base + BitVec.ofNat 32 (k + 1) := by
  rw [BitVec.add_assoc, ← BitVec.ofNat_add, Nat.add_comm]

/-- The first 2^24 addresses from a base on name different words: none after the first names the first again (R51). -/
theorem not_sameWord_imageAddress (base : Word) {k : Nat} (hk : k + 1 < 2 ^ 24) :
    ¬sameWord base (base + BitVec.ofNat 32 (k + 1)) := by
  have hadd : (base + BitVec.ofNat 32 (k + 1)).toNat = (base.toNat + (k + 1)) % 2 ^ 32 := by simp
  rw [sameWord, hadd]
  omega

/-- A word that no address of the image names is not written by placing it. -/
theorem State.readCell_loadImage_outside (s : State) (base : Word) (image : List Word) {b : Word}
    (hb : ∀ k < image.length, ¬sameWord b (base + BitVec.ofNat 32 k)) :
    readCell (s.loadImage base image).mem (wordCell b) = readCell s.mem (wordCell b) := by
  induction image generalizing s base with
  | nil => rfl
  | cons w rest ih =>
    have hfirst : wordCell b ≠ wordCell base := by simpa [sameWord_iff] using hb 0 (by simp)
    have hrest : ∀ k < rest.length, ¬sameWord b (base + 1#32 + BitVec.ofNat 32 k) := fun k hk => by
      rw [imageAddress_succ]
      exact hb (k + 1) (by simpa using hk)
    rw [loadImage_cons, ih _ _ hrest, memWrite_mem, readCell_writeWord, if_neg hfirst]

/-- Each word of an image that fits the memory stands at the base plus its index: the words placed after it go to other
addresses. -/
theorem State.readCell_loadImage (s : State) (base : Word) {image : List Word} (hfit : image.length ≤ 2 ^ 24) {k : Nat}
    (hk : k < image.length) :
    readCell (s.loadImage base image).mem (wordCell (base + BitVec.ofNat 32 k)) = some image[k] := by
  induction image generalizing s base k with
  | nil => cases hk
  | cons w rest ih =>
    simp only [List.length_cons] at hfit hk
    rw [loadImage_cons]
    cases k with
    | zero =>
      have hrest : ∀ j < rest.length, ¬sameWord base (base + 1#32 + BitVec.ofNat 32 j) := fun j hj => by
        rw [imageAddress_succ]
        exact not_sameWord_imageAddress base (by omega)
      rw [BitVec.add_zero, readCell_loadImage_outside _ _ _ hrest, memWrite_mem, readCell_writeWord, if_pos rfl,
        List.getElem_cons_zero]
    | succ j =>
      rw [← imageAddress_succ base j, ih _ _ (by omega) (by omega), List.getElem_cons_succ]

/-- A word of the memory that has been written reads as it was written. -/
theorem State.memRead_of_readCell {s : State} {addr w : Word} (h : readCell s.mem (wordCell addr) = some w) :
    s.memRead addr = w := by
  simp [memRead, wordAt, h]

/-- The first fetch after the image is placed reads the word the reset pc names. -/
theorem State.fetch_boot (image : List Word) : (State.boot image).fetch = (State.boot image).memRead 0#32 :=
  congrArg (State.boot image).memRead (State.reset.loadImage_pc Config.loadBase image)

/-- Settles O35: the reset pc and the base at which the image is placed are both 0 (log 4, log 5). -/
theorem loadedImageReadsBack : Obligations.LoadedImageReadsBack := by
  intro image base s hfit
  refine ⟨fun k hk => ?_, fun b hb => ?_, fun h => ⟨?_, State.loadImage_halted ..⟩⟩
  · have hcell := s.readCell_loadImage base hfit hk
    exact ⟨State.memRead_of_readCell hcell, Option.isSome_of_eq_some hcell⟩
  · rw [State.memRead, State.wordAt, s.readCell_loadImage_outside base image hb]
    rfl
  · rw [State.fetch_boot]
    exact State.memRead_of_readCell (State.reset.readCell_loadImage 0#32 hfit h)

/-! ### The state after reset (R215 to R219: log 4) -/

/-- No register but 0 is written at reset (R217). -/
theorem State.regReady_reset {r : RegNum} (hr : r ≠ 0#4) : State.reset.regReady r = false := by
  simp [regReady, reset, hr]

/-- Settles O36: reset writes no register, no flag and no word of memory. -/
theorem resetStateIsUnwritten : Obligations.ResetStateIsUnwritten :=
  ⟨rfl, rfl, State.reset.readReg_zero, fun _ => State.regReady_reset, rfl, fun _ => rfl⟩

/-! ### The invariant at reset and along every run (R222, R223) -/

/-- Settles O37: with nothing written, the invariant asks for placeholders alone. -/
theorem resetMeetsInv : Obligations.ResetMeetsInv where
  memory := wf_reset
  flagsOneHot := nofun
  flagsPlaceholder := fun _ => rfl
  regsPlaceholder := fun i _ => Vector.getElem_replicate i.isLt
  zeroUnwritten := rfl

/-- The host's stores keep the invariant. -/
theorem State.Inv.loadImage {s : State} (hs : s.Inv) (base : Word) (image : List Word) :
    (s.loadImage base image).Inv := by
  induction image generalizing s base with
  | nil => exact hs
  | cons w rest ih => exact ih (hs.memWrite base w) (base + 1#32)

/-- Settles O39: the image is placed in the reset state, and every step keeps the invariant (O38). -/
theorem everyRunKeepsInv : Obligations.EveryRunKeepsInv :=
  fun image _ _ hrun => run_induction everyStepKeepsInv (resetMeetsInv.loadImage Config.loadBase image) hrun

end Sys2Proof.Machine
end
